-- ==== Sys2Proof/Word.lean ====
section
/-! DEFINITION. The value of one memory cell, and the names of the two ALU operations. -/

namespace Sys2Proof

/-- One memory cell: a signed 64-bit integer (R5). The cell's number is `BitVec.toInt`; its bit pattern is the 64-bit
two's complement of that number, bit 0 least significant (R31, D9). Log entry 13. -/
abbrev Word := BitVec 64

/-- `INT64_MIN` (R5). -/
def int64Min : Int := -9223372036854775808

/-- `INT64_MAX` (R5). -/
def int64Max : Int := 9223372036854775807

/-- The operations the ALU has, the `k ∈ {ADD, MUL}` of R63 and R64. -/
inductive ArithOp where
  | add
  | mul
  deriving DecidableEq, Repr

end Sys2Proof
end

