-- ==== Sys2Proof/Config.lean ====
section
/-! DEFINITION. The parameters of the machine (R12): fixed for the whole run, and no state. -/

namespace Sys2Proof

/-- What Add and Multiply do when the exact result lies outside int64 (R8). -/
inductive OverflowMode where
  /-- The run ends with ArithOverflow. -/
  | fault
  /-- The result is kept modulo 2^64, read back as signed. -/
  | wrap
  deriving DecidableEq, Repr, Inhabited

/-- The default the spec states for `OVERFLOW_MODE` (R8, D4). -/
def Config.defaultOverflowMode : OverflowMode := .fault

/-- `OVERFLOW_MODE` of this machine (R8, R12, D4): an open parameter, so a constant with no body; what is proved of
the machine holds in both modes. Log entry 3. -/
opaque Config.overflowMode : OverflowMode

/-- `MAX_LEN` as a number below 2^63, which is the constraint `MAX_LEN ≤ 2^63 - 1` (R6, D10). A constant with no body:
nothing but that bound is known of it. Log entry 4. -/
opaque Config.maxLenBounded : Fin 9223372036854775808

/-- `MAX_LEN`, the greatest number of cells an image may have (R6, D10). -/
def Config.maxLen : Nat := Config.maxLenBounded.val

end Sys2Proof
end

