-- ==== Sys2Proof/Machine/Flags.lean ====
section
/-! DEFINITION. The ALU (R63). The machine has no flags (R13, R68); the one condition the ALU computes beside its result
is overflow, which is decided on the exact integer result (R67). -/

namespace Sys2Proof.Machine

/-- The exact sum or product (R63). -/
def exactResult (k : ArithOp) (a b : Int) : Int :=
  match k with
  | .add => a + b
  | .mul => a * b

/-- `INT64_MIN ≤ r ≤ INT64_MAX` (R63). -/
def fitsInt64 (r : Int) : Bool := decide (int64Min ≤ r ∧ r ≤ int64Max)

/-- `wrap64(r) = ((r + 2^63) mod 2^64) - 2^63` (R63). -/
def wrap64 (r : Int) : Int := (r + 9223372036854775808) % 18446744073709551616 - 9223372036854775808

/-- The exact result brought back to a cell: as it is where it fits, and else what `OVERFLOW_MODE` says (R63); `none` is
the answer OVERFLOW. -/
def narrow (mode : OverflowMode) (r : Int) : Option Word :=
  if fitsInt64 r then some (BitVec.ofInt 64 r)
  else
    match mode with
    | .wrap => some (BitVec.ofInt 64 (wrap64 r))
    | .fault => none

/-- `alu(k, a, b)` of R63 under a given `OVERFLOW_MODE`. -/
def alu (mode : OverflowMode) (k : ArithOp) (a b : Word) : Option Word := narrow mode (exactResult k a.toInt b.toInt)

end Sys2Proof.Machine
end

