-- ==== Sys2Proof/Syntax.lean ====
section
/-! DEFINITION. The instructions, one constructor per row of spec/opcode_table.json. -/

namespace Sys2Proof

/-- A decoded instruction with the values of its operand slots: 3 for Add and Multiply, 0 for Halt (Glossary, R39).
Every operand is a position operand, the whole int64 of its cell used as an absolute cell address (R45). The Unknown
case of the decoder is no instruction of the table; see `Op.unknown` and `Decoded.unknownOpCode`. -/
inductive Instr where
  /-- `ADD src1, src2, dest`, opcode cell 1 (R43, R65). -/
  | add (src1 src2 dest : Word)
  /-- `MUL src1, src2, dest`, opcode cell 2 (R43, R66). -/
  | mul (src1 src2 dest : Word)
  /-- `HLT`, opcode cell 99 (R44, R71). -/
  | hlt
  deriving DecidableEq, Repr

end Sys2Proof
end

