-- ==== Sys2Proof/Decode.lean ====
section
/-! DEFINITION. The decoder, total on any cells, and the encoder. The unit of an instruction is the cell (R39). -/

namespace Sys2Proof

/-- `Op` of R42: what an opcode cell names. -/
inductive Op where
  | arith (k : ArithOp)
  | halt
  | unknown (v : Word)
  deriving DecidableEq, Repr

/-- What the decoder reads from the cells that stand from `ip` on. -/
inductive Decoded where
  /-- A whole instruction, and the cells after it. -/
  | instr (i : Instr) (rest : List Word)
  /-- An Add or Multiply of whose three operand cells one or more is missing (R70). -/
  | notEnoughParams (k : ArithOp)
  /-- An opcode cell that is none of 1, 2 and 99 (R47). -/
  | unknownOpCode (v : Word)
  /-- No opcode cell at all. -/
  | noCell
  deriving DecidableEq, Repr

/-- The opcode values (R41). -/
def ArithOp.opcode : ArithOp → Word
  | .add => 1
  | .mul => 2

/-- The opcode value of Halt (R41). -/
def haltOpcode : Word := 99

/-- `decode : int64 → Op` of R42. The whole value is compared; it has no fields (R40). -/
def decodeOp (v : Word) : Op :=
  if v = ArithOp.add.opcode then .arith .add
  else if v = ArithOp.mul.opcode then .arith .mul
  else if v = haltOpcode then .halt
  else .unknown v

/-- The instruction of format A for an ALU operation (R43). -/
def ArithOp.instr (k : ArithOp) (src1 src2 dest : Word) : Instr :=
  match k with
  | .add => .add src1 src2 dest
  | .mul => .mul src1 src2 dest

/-- The decoder on the cells from `ip` on: the opcode alone fixes the format (R46), format A takes four cells (R43),
format H one (R44). Cells a format does not take change nothing. -/
def decode : List Word → Decoded
  | [] => .noCell
  | v :: rest =>
    match decodeOp v with
    | .arith k =>
      match rest with
      | src1 :: src2 :: dest :: after => .instr (k.instr src1 src2 dest) after
      | _ => .notEnoughParams k
    | .halt => .instr .hlt rest
    | .unknown u => .unknownOpCode u

/-- The cells of an instruction (R43, R44, R49). -/
def encode : Instr → List Word
  | .add src1 src2 dest => [1, src1, src2, dest]
  | .mul src1 src2 dest => [2, src1, src2, dest]
  | .hlt => [99]

/-- How many cells the longest instruction has (R46). -/
def maxInstrCells : Nat := 4

/-- The cells of a number that is laid out as the opcode table numbers bits: bit 0 is the least significant bit of the
first cell, and each further cell counts on by 64. Log entry 8. -/
def cellsOfNat : Nat → Nat → List Word
  | 0, _ => []
  | n + 1, w => BitVec.ofNat 64 w :: cellsOfNat n (w / 18446744073709551616)

/-- The cells of an instruction of `nbits` bits `w`: every bit above `nbits` is zero, up to the longest instruction. -/
def tableCells (nbits w : Nat) : List Word := cellsOfNat maxInstrCells (w % 2 ^ nbits)

/-- What the decoder reads from an instruction whose bits are `w`, numbered as spec/opcode_table.json numbers them. -/
def decodeTableWord (nbits w : Nat) : Option Instr :=
  match decode (tableCells nbits w) with
  | .instr i _ => some i
  | _ => none

end Sys2Proof
end

