-- ==== Sys2Proof/Machine/State.lean ====
section
/-! DEFINITION. The architectural state (R11), its value after reset, and the reasons a step can stop. -/

namespace Sys2Proof.Machine

/-- The cells of the memory array that are not zero, as (cell index, value) pairs in rising order of index. A cell that
is not listed holds `unlisted`. Log entry 1. -/
abbrev Memory := List (Nat × Word)

/-- What a cell that the list does not name holds. -/
def unlisted : Word := 0

/-- The canonical form: indices strictly rising, and no entry equal to what an unlisted cell holds. -/
abbrev Memory.wf (m : Memory) : Prop :=
  m.Pairwise (fun x y => x.1 < y.1) ∧ ∀ e ∈ m, e.2 ≠ unlisted

/-- The run-status register `status` (R17). -/
inductive Status where
  | running
  | halted
  | endOfMemory
  | errProgramTooShort
  | errNotEnoughParams
  | errSegFault
  | errUnknownOpCode
  | errArithOverflow
  deriving DecidableEq, Repr

/-- The 3-bit code of `status` (R17). -/
def Status.code : Status → BitVec 3
  | .running => 0
  | .halted => 1
  | .endOfMemory => 2
  | .errProgramTooShort => 3
  | .errNotEnoughParams => 4
  | .errSegFault => 5
  | .errUnknownOpCode => 6
  | .errArithOverflow => 7

/-- The register `err_op` (R18). Code 3 is reserved and never written, so it has no constructor (U8). Log entry 9. -/
inductive ErrOp where
  | none
  | add
  | mul
  deriving DecidableEq, Repr

/-- The 2-bit code of `err_op` (R18). -/
def ErrOp.code : ErrOp → BitVec 2
  | .none => 0
  | .add => 1
  | .mul => 2

/-- The error kinds with their payloads (R74, Glossary). -/
inductive ExecutionError where
  | programTooShort
  | notEnoughParams (k : ArithOp)
  | segFault
  | unknownOpCode (v : Word)
  | arithOverflow (k : ArithOp)
  deriving DecidableEq, Repr

/-- What a run returns to the host: `Result<sequence<int64>, ExecutionError>` (R59). -/
inductive RunResult where
  | ok (memory : List Word)
  | err (e : ExecutionError)
  deriving DecidableEq, Repr

/-- The whole architectural state `S = (mem, len, ip, status, err_op, err_val)` (R11). -/
structure State where
  /-- The memory array: program and data (R14). -/
  mem : Memory
  /-- The number of cells of the array (R15). -/
  len : Nat
  /-- The instruction pointer (R16). -/
  ip : Nat
  /-- The run-status register (R17). -/
  status : Status
  /-- The operation that faulted (R18). -/
  errOp : ErrOp
  /-- The raw opcode of an UnknownOpCode (R19). -/
  errVal : Word
  deriving DecidableEq, Repr

/-- Why a step has no next state. -/
inductive Fault where
  /-- Raised by the step when `status` is not RUNNING: such a state has no enabled step and never changes (R53, R58).
  Safe: the run is over, and no state follows. Log entry 5. -/
  | noEnabledStep
  deriving DecidableEq, Repr

/-- Why something is given no meaning. -/
inductive Refusal where
  /-- Raised by an arm of `exec` whose instruction has no meaning yet; no arm is left so. Safe. -/
  | notModelled (mnemonic : String)
  /-- Raised by `start` for an image longer than `MAX_LEN`: it cannot be presented, and there is no start (R51, D10).
  Safe. Log entry 4. -/
  | imageTooLong
  deriving DecidableEq, Repr

/-- The machine right after reset with nothing loaded. Reset is the start transition (R87), which takes the host's
image; this is its value for the empty image, `len = 0` (R24, R51). Log entry 2. -/
def State.reset : State where
  mem := []
  len := 0
  ip := 0
  status := .errProgramTooShort
  errOp := .none
  errVal := 0

end Sys2Proof.Machine
end

