-- ==== Sys2Proof/Machine/Ops.lean ====
section
/-! DEFINITION. The named operations over the memory array and the registers, taking an exception, and the start
transition. -/

namespace Sys2Proof.Machine

/-- The value of cell `a`: the latest write to it, or its image value (R33). Used under `a < len` only (R27). -/
def Memory.read : Memory → Nat → Word
  | [], _ => unlisted
  | (b, v) :: rest, a => if a = b then v else Memory.read rest a

/-- The list without an entry for cell `a`. -/
def Memory.erase (m : Memory) (a : Nat) : Memory := m.filter (fun e => decide (e.1 ≠ a))

/-- The list with an entry `(a, v)` put before the first entry of a higher index. -/
def Memory.insert : Memory → Nat → Word → Memory
  | [], a, v => [(a, v)]
  | (b, w) :: rest, a, v => if a < b then (a, v) :: (b, w) :: rest else (b, w) :: Memory.insert rest a v

/-- A write replaces the whole cell (R30). Writing what an unlisted cell holds removes the entry. -/
def Memory.write (m : Memory) (a : Nat) (v : Word) : Memory :=
  if v = unlisted then Memory.erase m a else Memory.insert (Memory.erase m a) a v

/-- The values of the `n` cells from cell `a` on. -/
def Memory.slice (m : Memory) (a : Nat) : Nat → List Word
  | 0 => []
  | n + 1 => Memory.read m a :: Memory.slice m (a + 1) n

/-- The memory that holds the given cells from cell `a` on, and nothing else. -/
def Memory.ofCells : Nat → List Word → Memory
  | _, [] => []
  | a, v :: rest => if v = unlisted then Memory.ofCells (a + 1) rest else (a, v) :: Memory.ofCells (a + 1) rest

/-- The cells written one after the other from cell `a` on. -/
def Memory.writeCells : Memory → Nat → List Word → Memory
  | m, _, [] => m
  | m, a, v :: rest => Memory.writeCells (Memory.write m a v) (a + 1) rest

/-- `MemWrite(a, 1, v)` of spec/00_scope.md section 4. -/
def State.writeCell (s : State) (a : Nat) (v : Word) : State := { s with mem := Memory.write s.mem a v }

/-- The stride of Add and Multiply, in cells (R7). -/
def stride : Nat := 4

/-- `ip <- ip + 4` (R7, R16). -/
def State.advance (s : State) : State := { s with ip := s.ip + stride }

/-- The run ends with `status`, and nothing else is written (R54, R71). -/
def State.endRun (s : State) (st : Status) : State := { s with status := st }

/-- The name of an operation in `err_op` (R18). -/
def ErrOp.ofArith : ArithOp → ErrOp
  | .add => .add
  | .mul => .mul

/-- The operation `err_op` names, if it names one (R18). -/
def ErrOp.arith : ErrOp → Option ArithOp
  | .none => Option.none
  | .add => some .add
  | .mul => some .mul

/-- The status an error ends the run with (R74). -/
def ExecutionError.status : ExecutionError → Status
  | .programTooShort => .errProgramTooShort
  | .notEnoughParams _ => .errNotEnoughParams
  | .segFault => .errSegFault
  | .unknownOpCode _ => .errUnknownOpCode
  | .arithOverflow _ => .errArithOverflow

/-- `err_op` after an error: written by NotEnoughParams and ArithOverflow only (R18). -/
def ExecutionError.errOpAfter (e : ExecutionError) (old : ErrOp) : ErrOp :=
  match e with
  | .notEnoughParams k => ErrOp.ofArith k
  | .arithOverflow k => ErrOp.ofArith k
  | .programTooShort => old
  | .segFault => old
  | .unknownOpCode _ => old

/-- `err_val` after an error: written by UnknownOpCode only (R19). -/
def ExecutionError.errValAfter (e : ExecutionError) (old : Word) : Word :=
  match e with
  | .unknownOpCode v => v
  | .programTooShort => old
  | .notEnoughParams _ => old
  | .segFault => old
  | .arithOverflow _ => old

/-- Taking an exception, `raise E(info)` (R81): status and the payload register are set; no cell is written, `ip` stays
at the faulting instruction, and nothing else changes. There is no vector, saved pc or handler, and so no return from
an exception (R82): only a new `startState` runs again. -/
def State.raise (s : State) (e : ExecutionError) : State :=
  { s with
    status := e.status
    errOp := e.errOpAfter s.errOp
    errVal := e.errValAfter s.errVal }

/-- The state `Start(image)` leaves (R51): every component is set, and an empty image raises ProgramTooShort before any
step (R75). It does not look at the state before (R88). -/
def startState (image : List Word) : State :=
  let loaded : State :=
    { mem := Memory.ofCells 0 image
      len := image.length
      ip := 0
      status := .running
      errOp := .none
      errVal := 0 }
  if loaded.len = 0 then loaded.raise .programTooShort else loaded

/-- Cells placed where the next instruction is fetched, the array long enough to hold them, and the run going on. It is
no transition of the machine: it stands for the host's load of a program. Log entry 2. -/
def State.placeInstr (s : State) (cells : List Word) : State :=
  { s with
    mem := Memory.writeCells s.mem s.ip cells
    len := max s.len (s.ip + cells.length)
    status := .running }

end Sys2Proof.Machine
end

