-- ==== Sys2Proof/Machine/Operands.lean ====
section
/-! DEFINITION. The one operand form, the position operand (R45), its address check, and the check that the operand
cells exist. -/

namespace Sys2Proof.Machine

/-- `valid(a) ≡ 0 ≤ a < len`, compared as integers, so that no negative value is an address (R10, R27). -/
def State.valid (s : State) (a : Word) : Bool := decide (0 ≤ a.toInt ∧ a.toInt < (s.len : Int))

/-- The cell an operand value names: the value itself, with nothing added, scaled or extended (R45). Used under
`State.valid` only. -/
def cellIndex (a : Word) : Nat := a.toInt.toNat

/-- `MemRead(a, 1)` of a position operand (R28). -/
def State.readOperand (s : State) (a : Word) : Word := Memory.read s.mem (cellIndex a)

/-- `MemWrite(a, 1, v)` to a position operand (R28). -/
def State.writeOperand (s : State) (a : Word) (v : Word) : State := s.writeCell (cellIndex a) v

/-- All three operand cells of the instruction at `ip` lie inside memory: `ip + 3 < len` (R64, R70). -/
def State.operandsPresent (s : State) : Bool := decide (s.ip + 3 < s.len)

/-- `valid(src1) and valid(src2) and valid(dest)` (R64). The order of the three checks is not observable (U5). -/
def State.operandsValid (s : State) (src1 src2 dest : Word) : Bool := s.valid src1 && s.valid src2 && s.valid dest

end Sys2Proof.Machine
end

