-- ==== Sys2Proof/Machine/Arithmetic.lean ====
section
/-! DEFINITION. The arithmetic family, ADD and MUL (spec/41_arithmetic.md). -/

namespace Sys2Proof.Machine

/-- `ExecArith(k)` of R64 under a given `OVERFLOW_MODE`, from the fetched operand values on: NotEnoughParams, then
SegFault, then the data reads, then ArithOverflow, then the only write, then `ip + 4`. Both data values are read before
the write (R36). -/
def execArith (mode : OverflowMode) (k : ArithOp) (src1 src2 dest : Word) (s : State) : State :=
  if s.operandsPresent then
    if s.operandsValid src1 src2 dest then
      match alu mode k (s.readOperand src1) (s.readOperand src2) with
      | some r => (s.writeOperand dest r).advance
      | none => s.raise (.arithOverflow k)
    else s.raise .segFault
  else s.raise (.notEnoughParams k)

/-- ADD (R65): `mem[dest] <- add64(mem[src1], mem[src2]); ip <- ip + 4`. -/
def execAdd (src1 src2 dest : Word) (s : State) : Host.Outcome State Fault Refusal :=
  .next (execArith Config.overflowMode .add src1 src2 dest s)

/-- MUL (R66): `mem[dest] <- mul64(mem[src1], mem[src2]); ip <- ip + 4`. -/
def execMul (src1 src2 dest : Word) (s : State) : Host.Outcome State Fault Refusal :=
  .next (execArith Config.overflowMode .mul src1 src2 dest s)

end Sys2Proof.Machine
end

