-- ==== Sys2Proof/Machine/Control.lean ====
section
/-! DEFINITION. The control family, HLT (spec/42_control.md). -/

namespace Sys2Proof.Machine

/-- HLT (R71): `status <- HALTED`, and nothing else is written. It reads no operand cell and raises nothing. -/
def execHlt (s : State) : Host.Outcome State Fault Refusal :=
  .next (s.endRun .halted)

end Sys2Proof.Machine
end

