-- ==== Sys2Proof/Machine/Dispatch.lean ====
section
/-! DEFINITION. The dispatch of a decoded instruction to its meaning (R56). -/

namespace Sys2Proof.Machine

/-- R56: exactly one meaning per instruction. The Unknown case is the sequencer's (R57). -/
def exec (i : Instr) (s : State) : Host.Outcome State Fault Refusal :=
  match i with
  | .add src1 src2 dest => Sys2Proof.Machine.execAdd src1 src2 dest s
  | .mul src1 src2 dest => Sys2Proof.Machine.execMul src1 src2 dest s
  | .hlt => Sys2Proof.Machine.execHlt s

end Sys2Proof.Machine
end

