-- ==== Sys2Proof/Machine/Sequencer.lean ====
section
/-! DEFINITION. The fetch-decode-execute sequencer (spec/40_sequencer.md): one step of the Executor. -/

namespace Sys2Proof.Machine

/-- The cells from `ip` on that an instruction can take: as many as exist inside memory, four at most (R28, R55). The
value of each is the cell's current value (R37). Log entry 6. -/
def State.fetchCells (s : State) : List Word := Memory.slice s.mem s.ip (min maxInstrCells (s.len - s.ip))

/-- What a step does with what it decoded (R53, R56, R57, R70). -/
def dispatchDecoded (d : Decoded) (s : State) : Host.Outcome State Fault Refusal :=
  match d with
  | .instr i _ => exec i s
  | .notEnoughParams k => .next (s.raise (.notEnoughParams k))
  | .unknownOpCode v => .next (s.raise (.unknownOpCode v))
  | .noCell => .next (s.endRun .endOfMemory)

/-- `step(S)` of R53: enabled exactly when `status` is RUNNING; the loop test comes before the fetch (R54, R80). The
decoder's `noCell` cannot arise behind the loop test. -/
def sequence (s : State) : Host.Outcome State Fault Refusal :=
  if s.status = .running then
    if s.ip < s.len then dispatchDecoded (decode s.fetchCells) s
    else .next (s.endRun .endOfMemory)
  else .fault .noEnabledStep

end Sys2Proof.Machine
end

