-- ==== Sys2Proof/Machine/Step.lean ====
section
/-! DEFINITION. The step, under the name the host knows, and the placing of one instruction for the next fetch. -/

namespace Sys2Proof.Machine

/-- One step of the machine (R53). -/
def step : State → Host.Outcome State Fault Refusal := sequence

/-- `s` with the instruction of `nbits` bits `w` placed where `step` fetches next. Log entries 2 and 8. -/
def State.withFetchWord (s : State) (nbits w : Nat) : State := s.placeInstr (tableCells nbits w)

end Sys2Proof.Machine
end

