-- ==== Sys2Proof/WellFormed.lean ====
section
/-! DEFINITION. Which instructions and which images are admitted at all. -/

namespace Sys2Proof

/-- The operand cells of format A have no illegal values: any int64 is accepted, and an address out of range is caught
at execution, not here (R48). HLT has no operands. So the encoding gives no instruction an ill-formed operand. -/
def Instr.wellFormed : Instr → Bool
  | .add _ _ _ => true
  | .mul _ _ _ => true
  | .hlt => true

/-- An image can be presented when it has at most `MAX_LEN` cells; nothing is asked of its content (R51, R89). -/
def imageWellFormed (image : List Word) : Bool := decide (image.length ≤ Config.maxLen)

end Sys2Proof
end

