-- ==== Sys2Proof/Machine/Run.lean ====
section
/-! DEFINITION. The host interface (R86): the start, the result, and the whole run. -/

namespace Sys2Proof.Machine

/-- The host presents an image (R51, R86): at most `MAX_LEN` cells, or there is no start (D10). -/
def start (image : List Word) : Host.Outcome State Fault Refusal :=
  if imageWellFormed image then .next (startState image) else .refused .imageTooLong

/-- The `len` cells of the array, the full memory sequence (R14, R59). -/
def State.image (s : State) : List Word := Memory.slice s.mem 0 s.len

/-- The result returned to the host (R59): none while RUNNING. An error result carries no memory (D7). `err_op` names an
operation in every state a run reaches with status 4 or 7; where it names none, there is no result. Log entry 10. -/
def State.result (s : State) : Option RunResult :=
  match s.status with
  | .running => none
  | .halted => some (.ok s.image)
  | .endOfMemory => some (.ok s.image)
  | .errProgramTooShort => some (.err .programTooShort)
  | .errNotEnoughParams => s.errOp.arith.map (fun k => .err (.notEnoughParams k))
  | .errSegFault => some (.err .segFault)
  | .errUnknownOpCode => some (.err (.unknownOpCode s.errVal))
  | .errArithOverflow => s.errOp.arith.map (fun k => .err (.arithOverflow k))

/-- The loop of R62: at most `n` steps, left as soon as `status` is not RUNNING. -/
def runLoop : Nat → State → State
  | 0, s => s
  | n + 1, s =>
    if s.status = .running then
      match step s with
      | .next t => runLoop n t
      | .fault _ => s
      | .refused _ => s
    else s

/-- The bound on the steps of a run: `⌊len/4⌋ + 1` (R60). -/
def stepBound (len : Nat) : Nat := len / stride + 1

/-- `run(image)` of R62 for an image that has been presented: `Start`, the bounded loop, the result. -/
def runImage (image : List Word) : Option RunResult :=
  (runLoop (stepBound (startState image).len) (startState image)).result

/-- `run(image)` as the host has it (R62, R86): none when the image cannot be presented (D10). -/
def run (image : List Word) : Option RunResult :=
  match start image with
  | .next s => (runLoop (stepBound s.len) s).result
  | .fault _ => none
  | .refused _ => none

end Sys2Proof.Machine
end

