-- ==== Sys2Proof/Safety.lean ====
section
/-! DEFINITION. What claims about the machine are stated in: the invariant, the cause of a status, the runs. -/

namespace Sys2Proof.Machine

/-- The facts that hold at every state of a run: the memory list is canonical, names no cell outside the array, and
`ip` is a multiple of 4 that never exceeds `len` (R21). -/
structure State.Inv (s : State) : Prop where
  memCanonical : Memory.wf s.mem
  memInside : ∀ e ∈ s.mem, e.1 < s.len
  ipAligned : s.ip % 4 = 0
  ipInside : s.ip ≤ s.len

/-- The opcode cell at `ip`, as the integer it holds (R55). -/
def State.opcodeAt (s : State) : Int := (Memory.read s.mem s.ip).toInt

/-- The operand cell `ip + k` (R43). -/
def State.operandCell (s : State) (k : Nat) : Word := Memory.read s.mem (s.ip + k)

/-- An address of R27, as a proposition over the integers. -/
abbrev State.Valid (s : State) (a : Word) : Prop := 0 ≤ a.toInt ∧ a.toInt < (s.len : Int)

/-- The opcode value of an operation as an integer (R41). -/
def arithValue : ArithOp → Int
  | .add => 1
  | .mul => 2

/-- The three operand cells of the instruction at `ip` are valid addresses (R28). -/
def State.AddressesValid (s : State) : Prop :=
  s.Valid (s.operandCell 1) ∧ s.Valid (s.operandCell 2) ∧ s.Valid (s.operandCell 3)

/-- The exact result of the Add or Multiply at `ip` on the two cells it reads (R63, R64). -/
def State.exactAt (s : State) (k : ArithOp) : Int :=
  let a := (Memory.read s.mem (s.operandCell 1).toInt.toNat).toInt
  let b := (Memory.read s.mem (s.operandCell 2).toInt.toNat).toInt
  match k with
  | .add => a + b
  | .mul => a * b

/-- `s` has become `t` by storing the integer `r` in the cell that `dest` names and moving on by the stride: that cell
holds `r`, every other cell reads as before, `ip` is 4 further, and nothing else has changed (R64, R68). -/
def Stored (s t : State) (dest : Word) (r : Int) : Prop :=
  (Memory.read t.mem dest.toInt.toNat).toInt = r ∧
    (∀ a : Nat, (a : Int) ≠ dest.toInt → Memory.read t.mem a = Memory.read s.mem a) ∧
    t.ip = s.ip + 4 ∧ t.len = s.len ∧ t.status = s.status ∧ t.errOp = s.errOp ∧ t.errVal = s.errVal

/-- A number is in the range of int64 (R5). -/
abbrev InInt64 (r : Int) : Prop := -9223372036854775808 ≤ r ∧ r ≤ 9223372036854775807

/-- `s` and `t` agree in every component but the memory array. -/
abbrev SameRegisters (s t : State) : Prop :=
  s.len = t.len ∧ s.ip = t.ip ∧ s.status = t.status ∧ s.errOp = t.errOp ∧ s.errVal = t.errVal

/-- What a status and its payload say of the rest of the state (R17, R18, R19, R22, R74): the cause can be read back
from `ip` and `mem`, which the end of a run leaves unchanged. While RUNNING, no payload has been written. -/
def State.CauseHolds (s : State) : Prop :=
  match s.status with
  | .running => s.errOp = .none ∧ s.errVal = 0 ∧ 0 < s.len
  | .halted => s.errOp = .none ∧ s.errVal = 0 ∧ s.ip < s.len ∧ s.opcodeAt = 99
  | .endOfMemory => s.errOp = .none ∧ s.errVal = 0 ∧ s.ip = s.len ∧ 0 < s.len
  | .errProgramTooShort => s.errOp = .none ∧ s.errVal = 0 ∧ s.len = 0 ∧ s.ip = 0
  | .errNotEnoughParams =>
    s.errVal = 0 ∧ s.ip < s.len ∧ s.len ≤ s.ip + 3 ∧
      ∃ k, s.errOp = ErrOp.ofArith k ∧ s.opcodeAt = arithValue k
  | .errSegFault =>
    s.errOp = .none ∧ s.errVal = 0 ∧ s.ip + 3 < s.len ∧ (s.opcodeAt = 1 ∨ s.opcodeAt = 2) ∧ ¬ s.AddressesValid
  | .errUnknownOpCode =>
    s.errOp = .none ∧ s.ip < s.len ∧ s.errVal.toInt = s.opcodeAt ∧
      s.opcodeAt ≠ 1 ∧ s.opcodeAt ≠ 2 ∧ s.opcodeAt ≠ 99
  | .errArithOverflow =>
    Config.overflowMode = .fault ∧ s.errVal = 0 ∧ s.ip + 3 < s.len ∧ s.AddressesValid ∧
      ∃ k, s.errOp = ErrOp.ofArith k ∧ s.opcodeAt = arithValue k ∧
        ¬ InInt64 (s.exactAt k)

/-- The states of a run: what a start leaves, and what a step makes of a state of a run (R52). -/
inductive Reachable : State → Prop where
  | start (image : List Word) : Reachable (startState image)
  | step (s t : State) : Reachable s → step s = .next t → Reachable t

end Sys2Proof.Machine
end

