-- ==== Sys2Proof/Certificates/Slice0/Obligations.lean ====
section
/-! DEFINITION. The statements for the provers. Each docstring names the rules of spec/ it formalises. -/

open Sys2Proof Sys2Proof.Machine

/-! ### Encoding -/

/-- R41, R43, R44: lists of cells written out from the encodings of the spec decode to the instructions they stand for;
1001 is no Add (R40). The clauses about `decodeTableWord` are the model's choice (DESIGN CHOICE, log entry 8): the spec
numbers bits within one cell only (D9), and the model takes a table row's operand cells, which lie above its 64 bits, as
0. -/
def Obligations.WordsFromTheSpecDecode : Prop :=
  decodeTableWord 64 1 = some (.add 0 0 0) ∧
  decodeTableWord 64 2 = some (.mul 0 0 0) ∧
  decodeTableWord 64 99 = some .hlt ∧
  decodeTableWord 64 1001 = none ∧
  decode [1, 9, 10, 3, 2, 3] = .instr (.add 9 10 3) [2, 3] ∧
  decode [2, 3, 11, 0, 99] = .instr (.mul 3 11 0) [99] ∧
  decode [99, 30, 40, 50] = .instr .hlt [30, 40, 50] ∧
  decode [1, 1, 1] = .notEnoughParams .add ∧
  decode [1001, 0, 0, 0] = .unknownOpCode 1001

/-- R40, R41, R42: the decoder compares the whole signed value of the cell with 1, 2 and 99, and gives everything else
back as Unknown with its raw value. -/
def Obligations.DecoderComparesTheWholeCell : Prop :=
  ∀ v : Word,
    (decodeOp v = .arith .add ↔ v.toInt = 1) ∧
    (decodeOp v = .arith .mul ↔ v.toInt = 2) ∧
    (decodeOp v = .halt ↔ v.toInt = 99) ∧
    (decodeOp v = .unknown v ↔ v.toInt ≠ 1 ∧ v.toInt ≠ 2 ∧ v.toInt ≠ 99)

/-- R39, R43, R44, R46: cells decode to an instruction exactly when they begin with that instruction's encoding, and
what is left over is what follows it. Every instruction is well formed (R48), so this is over all of them. -/
def Obligations.DecodingInvertsEncoding : Prop :=
  ∀ (cells : List Word) (i : Instr) (rest : List Word),
    decode cells = .instr i rest ↔ cells = encode i ++ rest

/-- R43, R48: any three int64 values are accepted as the operand cells of format A. -/
def Obligations.FormatAAcceptsEveryOperandValue : Prop :=
  ∀ (src1 src2 dest : Word) (rest : List Word),
    decode (1 :: src1 :: src2 :: dest :: rest) = .instr (.add src1 src2 dest) rest ∧
    decode (2 :: src1 :: src2 :: dest :: rest) = .instr (.mul src1 src2 dest) rest

/-- R44: a Halt takes one cell, whatever stands after it, be it nothing. -/
def Obligations.HaltTakesOneCell : Prop :=
  ∀ rest : List Word, decode (99 :: rest) = .instr .hlt rest

/-! ### The sequencer -/

/-- R53, R56: where the cells at `ip` decode to an instruction, the step of a running machine is that instruction's
meaning, with nothing around it; `ip` is moved by the meaning itself (R7). That the decoder reads the instruction's cells
in one piece is the model's inference (DEDUCED, log entry 6). -/
def Obligations.StepRunsTheDecodedInstruction : Prop :=
  ∀ (s : State) (i : Instr) (rest : List Word),
    s.status = .running → decode s.fetchCells = .instr i rest → step s = exec i s

/-- The cells handed to the decoder are those at `ip`, `ip+1`, `ip+2`, `ip+3`, each with its current value (R43, R55),
less those that lie outside memory. That they are handed over in one piece, whatever the opcode, is the model's inference
(DEDUCED, log entry 6): R28 has HLT and Unknown fetch the opcode alone, and the decoder of R42 reads one value; reads have
no side effect (R33), and `HaltAndUnknownReadOnlyTheOpcode` states that the other cells change nothing there. -/
def Obligations.FetchReadsTheCellsAtIp : Prop :=
  ∀ s : State,
    s.fetchCells.length = min 4 (s.len - s.ip) ∧
    ∀ n, n < 4 → s.ip + n < s.len → s.fetchCells[n]? = some (Memory.read s.mem (s.ip + n))

/-- R56: what the step does for each opcode value at `ip`, in terms of the meanings; the operands are the values of the
three cells after the opcode. The Add and Multiply whose operand cells are missing stand in
`MissingOperandCellsRaiseNotEnoughParams`. -/
def Obligations.StepDispatchesOnTheOpcodeCell : Prop :=
  ∀ s : State, s.status = .running →
    (s.ip + 3 < s.len → s.opcodeAt = 1 →
      step s = exec (.add (s.operandCell 1) (s.operandCell 2) (s.operandCell 3)) s) ∧
    (s.ip + 3 < s.len → s.opcodeAt = 2 →
      step s = exec (.mul (s.operandCell 1) (s.operandCell 2) (s.operandCell 3)) s) ∧
    (s.ip < s.len → s.opcodeAt = 99 → step s = exec .hlt s)

/-- R54: the loop test. A running machine with `ip ≥ len` stops with END_OF_MEMORY, writes nothing else, and that is
success; in a run, `ip` is then exactly `len` and `len` is not 0. -/
def Obligations.EndOfMemoryIsSuccess : Prop :=
  ∀ s : State, s.status = .running → s.len ≤ s.ip →
    step s = .next { s with status := .endOfMemory } ∧
    State.result { s with status := .endOfMemory } = some (.ok s.image) ∧
    (Reachable s → s.ip = s.len ∧ 0 < s.len)

/-- R57, R78: an opcode cell that is none of 1, 2 and 99 raises UnknownOpCode with its raw value; no cell is written and
`ip` stays. -/
def Obligations.UnknownOpcodeEndsTheRun : Prop :=
  ∀ s : State, s.status = .running → s.ip < s.len →
    s.opcodeAt ≠ 1 → s.opcodeAt ≠ 2 → s.opcodeAt ≠ 99 →
    step s = .next { s with status := .errUnknownOpCode, errVal := Memory.read s.mem s.ip }

/-- R23, R58: a state whose status is not RUNNING has no step to a next state, and the loop of a run leaves it as it
is. -/
def Obligations.TerminalStatesNeverChange : Prop :=
  ∀ s : State, s.status ≠ .running → (∀ t, step s ≠ .next t) ∧ ∀ n, runLoop n s = s

/-- R53: a step is enabled exactly when `status` is RUNNING. -/
def Obligations.StepIsEnabledExactlyWhenRunning : Prop :=
  ∀ s : State, (∃ t, step s = .next t) ↔ s.status = .running

/-- R17, R52, R74, R80: the eight statuses have the codes 0 to 7, each status a step can end in has exactly one cause, and
the causes follow the priority of R80: the loop test, then the decoder, then NotEnoughParams, then SegFault, then
ArithOverflow. -/
def Obligations.EachStatusHasItsExactCause : Prop :=
  (Status.running.code = 0 ∧ Status.halted.code = 1 ∧ Status.endOfMemory.code = 2 ∧
    Status.errProgramTooShort.code = 3 ∧ Status.errNotEnoughParams.code = 4 ∧ Status.errSegFault.code = 5 ∧
    Status.errUnknownOpCode.code = 6 ∧ Status.errArithOverflow.code = 7) ∧
  ∀ s t : State, step s = .next t →
    (t.status = .endOfMemory ↔ s.len ≤ s.ip) ∧
    (t.status = .errUnknownOpCode ↔ s.ip < s.len ∧ s.opcodeAt ≠ 1 ∧ s.opcodeAt ≠ 2 ∧ s.opcodeAt ≠ 99) ∧
    (t.status = .halted ↔ s.ip < s.len ∧ s.opcodeAt = 99) ∧
    (t.status = .errNotEnoughParams ↔
      s.ip < s.len ∧ s.len ≤ s.ip + 3 ∧ (s.opcodeAt = 1 ∨ s.opcodeAt = 2)) ∧
    (t.status = .errSegFault ↔
      s.ip + 3 < s.len ∧ (s.opcodeAt = 1 ∨ s.opcodeAt = 2) ∧ ¬ s.AddressesValid) ∧
    (t.status = .errArithOverflow ↔
      Config.overflowMode = .fault ∧ s.ip + 3 < s.len ∧ s.AddressesValid ∧
        ∃ k, s.opcodeAt = arithValue k ∧ ¬ InInt64 (s.exactAt k)) ∧
    t.status ≠ .errProgramTooShort

/-! ### The ALU -/

/-- R63: the exact sum or product where it fits int64, in both modes; where it does not, the result modulo 2^64 read
back as signed under `wrap`, and OVERFLOW under `fault`. -/
def Obligations.AluIsExactOrFollowsTheMode : Prop :=
  ∀ (k : ArithOp) (a b : Word),
    let r : Int := match k with
      | .add => a.toInt + b.toInt
      | .mul => a.toInt * b.toInt
    (InInt64 r → ∀ mode, ∃ v, alu mode k a b = some v ∧ v.toInt = r) ∧
    (¬ InInt64 r →
      (∃ v, alu .wrap k a b = some v ∧
        v.toInt = (r + 9223372036854775808) % 18446744073709551616 - 9223372036854775808) ∧
      alu .fault k a b = none)

/-- R67 and the corner cases of R65 and R66: both operations are commutative, zero and one are what they should be, a
sum of opposite signs never overflows, and -1 times INT64_MIN is OVERFLOW or INT64_MIN. -/
def Obligations.AluSignAndZeroLaws : Prop :=
  ∀ (mode : OverflowMode) (a b : Word),
    alu mode .add a b = alu mode .add b a ∧
    alu mode .mul a b = alu mode .mul b a ∧
    alu mode .add a 0 = some a ∧
    alu mode .mul a 0 = some 0 ∧
    alu mode .mul a 1 = some a ∧
    (0 ≤ a.toInt → b.toInt ≤ 0 → ∃ v, alu mode .add a b = some v ∧ v.toInt = a.toInt + b.toInt) ∧
    alu .fault .mul (BitVec.ofInt 64 (-1)) (BitVec.ofInt 64 (-9223372036854775808)) = none ∧
    alu .wrap .mul (BitVec.ofInt 64 (-1)) (BitVec.ofInt 64 (-9223372036854775808)) =
      some (BitVec.ofInt 64 (-9223372036854775808))

/-! ### ADD and MUL -/

/-- R64, R65: ADD completes when its operand cells exist, its three addresses are valid and the sum fits int64: it
stores the sum of the two cells in the destination cell and moves `ip` by 4. -/
def Obligations.AddStoresTheSum : Prop :=
  ∀ (s : State) (src1 src2 dest : Word),
    s.ip + 3 < s.len → s.Valid src1 → s.Valid src2 → s.Valid dest →
    InInt64 ((Memory.read s.mem src1.toInt.toNat).toInt + (Memory.read s.mem src2.toInt.toNat).toInt) →
    ∃ t, exec (.add src1 src2 dest) s = .next t ∧
      Stored s t dest ((Memory.read s.mem src1.toInt.toNat).toInt + (Memory.read s.mem src2.toInt.toNat).toInt)

/-- R64, R66: MUL completes when its operand cells exist, its three addresses are valid and the product fits int64: it
stores the product of the two cells in the destination cell and moves `ip` by 4. -/
def Obligations.MulStoresTheProduct : Prop :=
  ∀ (s : State) (src1 src2 dest : Word),
    s.ip + 3 < s.len → s.Valid src1 → s.Valid src2 → s.Valid dest →
    InInt64 ((Memory.read s.mem src1.toInt.toNat).toInt * (Memory.read s.mem src2.toInt.toNat).toInt) →
    ∃ t, exec (.mul src1 src2 dest) s = .next t ∧
      Stored s t dest ((Memory.read s.mem src1.toInt.toNat).toInt * (Memory.read s.mem src2.toInt.toNat).toInt)

/-- R63, R64, R65, R79: where the exact sum does not fit int64, ADD does what the configured OVERFLOW_MODE says: it
raises ArithOverflow(Add), or stores the sum modulo 2^64 read as signed. -/
def Obligations.AddOverflowFollowsTheMode : Prop :=
  ∀ (s : State) (src1 src2 dest : Word),
    let r := (Memory.read s.mem src1.toInt.toNat).toInt + (Memory.read s.mem src2.toInt.toNat).toInt
    s.ip + 3 < s.len → s.Valid src1 → s.Valid src2 → s.Valid dest → ¬ InInt64 r →
    match Config.overflowMode with
    | .fault => exec (.add src1 src2 dest) s = .next { s with status := .errArithOverflow, errOp := .add }
    | .wrap => ∃ t, exec (.add src1 src2 dest) s = .next t ∧
        Stored s t dest ((r + 9223372036854775808) % 18446744073709551616 - 9223372036854775808)

/-- R63, R64, R66, R79: where the exact product does not fit int64, MUL does what the configured OVERFLOW_MODE says: it
raises ArithOverflow(Multiply), or stores the product modulo 2^64 read as signed. -/
def Obligations.MulOverflowFollowsTheMode : Prop :=
  ∀ (s : State) (src1 src2 dest : Word),
    let r := (Memory.read s.mem src1.toInt.toNat).toInt * (Memory.read s.mem src2.toInt.toNat).toInt
    s.ip + 3 < s.len → s.Valid src1 → s.Valid src2 → s.Valid dest → ¬ InInt64 r →
    match Config.overflowMode with
    | .fault => exec (.mul src1 src2 dest) s = .next { s with status := .errArithOverflow, errOp := .mul }
    | .wrap => ∃ t, exec (.mul src1 src2 dest) s = .next t ∧
        Stored s t dest ((r + 9223372036854775808) % 18446744073709551616 - 9223372036854775808)

/-- R63, R64, R79: the shared procedure with the mode as its argument. Out of range, `fault` raises ArithOverflow with
the operation recorded, `wrap` never does and stores the wrapped result. -/
def Obligations.OverflowInEitherMode : Prop :=
  ∀ (k : ArithOp) (s : State) (src1 src2 dest : Word),
    let a := (Memory.read s.mem src1.toInt.toNat).toInt
    let b := (Memory.read s.mem src2.toInt.toNat).toInt
    let r := match k with
      | .add => a + b
      | .mul => a * b
    s.ip + 3 < s.len → s.Valid src1 → s.Valid src2 → s.Valid dest → ¬ InInt64 r →
    execArith .fault k src1 src2 dest s =
      { s with
        status := .errArithOverflow
        errOp := match k with
          | .add => .add
          | .mul => .mul } ∧
    Stored s (execArith .wrap k src1 src2 dest s) dest
      ((r + 9223372036854775808) % 18446744073709551616 - 9223372036854775808)

/-- R77: an Add or Multiply that has all its operand cells, of whose three addresses one or more is not valid, raises
SegFault with no payload; nothing else changes, whatever the sources hold. -/
def Obligations.BadAddressRaisesSegFault : Prop :=
  ∀ s : State, s.status = .running → s.ip + 3 < s.len → (s.opcodeAt = 1 ∨ s.opcodeAt = 2) →
    ¬ (s.Valid (s.operandCell 1) ∧ s.Valid (s.operandCell 2) ∧ s.Valid (s.operandCell 3)) →
    step s = .next { s with status := .errSegFault }

/-- R70, R76: an Add or Multiply of whose operand cells one or more is missing raises NotEnoughParams with its
operation; nothing else changes, whatever the cells that are there hold. -/
def Obligations.MissingOperandCellsRaiseNotEnoughParams : Prop :=
  ∀ s : State, s.status = .running → s.ip < s.len → s.len ≤ s.ip + 3 →
    (s.opcodeAt = 1 → step s = .next { s with status := .errNotEnoughParams, errOp := .add }) ∧
    (s.opcodeAt = 2 → step s = .next { s with status := .errNotEnoughParams, errOp := .mul })

/-- R64, R76, R77: the same two errors as effects of the meanings, for whatever operands they are given. -/
def Obligations.ArithmeticMeaningsTrapInOrder : Prop :=
  ∀ (s : State) (src1 src2 dest : Word),
    (s.len ≤ s.ip + 3 →
      exec (.add src1 src2 dest) s = .next { s with status := .errNotEnoughParams, errOp := .add } ∧
      exec (.mul src1 src2 dest) s = .next { s with status := .errNotEnoughParams, errOp := .mul }) ∧
    (s.ip + 3 < s.len → ¬ (s.Valid src1 ∧ s.Valid src2 ∧ s.Valid dest) →
      exec (.add src1 src2 dest) s = .next { s with status := .errSegFault } ∧
      exec (.mul src1 src2 dest) s = .next { s with status := .errSegFault })

/-- R68: the frame of ADD and MUL. One that completes changes the destination cell and `ip` only; one that faults
changes `status` and `err_op` only. -/
def Obligations.ArithmeticFrame : Prop :=
  ∀ (s t : State) (src1 src2 dest : Word),
    (exec (.add src1 src2 dest) s = .next t ∨ exec (.mul src1 src2 dest) s = .next t) →
    (t.ip = s.ip + 4 ∧ t.len = s.len ∧ t.status = s.status ∧ t.errOp = s.errOp ∧ t.errVal = s.errVal ∧
      ∀ a : Nat, (a : Int) ≠ dest.toInt → Memory.read t.mem a = Memory.read s.mem a) ∨
    (t.mem = s.mem ∧ t.ip = s.ip ∧ t.len = s.len ∧ t.errVal = s.errVal ∧
      (t.status = .errNotEnoughParams ∨ t.status = .errSegFault ∨ t.status = .errArithOverflow))

/-- R36, R65, R66: a step at an Add or Multiply computes with the values its source cells held before the step,
wherever the destination lies, its own four cells included. -/
def Obligations.StepComputesWithTheOldValues : Prop :=
  ∀ s : State, s.status = .running → s.ip + 3 < s.len → s.AddressesValid →
    (s.opcodeAt = 1 → InInt64 (s.exactAt .add) →
      ∃ t, step s = .next t ∧ Stored s t (s.operandCell 3) (s.exactAt .add)) ∧
    (s.opcodeAt = 2 → InInt64 (s.exactAt .mul) →
      ∃ t, step s = .next t ∧ Stored s t (s.operandCell 3) (s.exactAt .mul))

/-- R67: swapping the two sources of an ADD or MUL changes nothing. -/
def Obligations.SourcesCommute : Prop :=
  ∀ (s : State) (src1 src2 dest : Word),
    exec (.add src1 src2 dest) s = exec (.add src2 src1 dest) s ∧
    exec (.mul src1 src2 dest) s = exec (.mul src2 src1 dest) s

/-! ### HLT -/

/-- R71: HLT always executes; it sets `status` to HALTED and writes nothing else, a fetched 99 in any cell of memory,
the last included, is a Halt, and the run succeeds with the memory as it is. -/
def Obligations.HaltStopsTheRun : Prop :=
  ∀ s : State,
    exec .hlt s = .next { s with status := .halted } ∧
    (s.status = .running → s.ip < s.len → s.opcodeAt = 99 → step s = .next { s with status := .halted }) ∧
    State.result { s with status := .halted } = some (.ok s.image)

/-! ### The registers and the memory array over every step -/

/-- R15: `len` is set by the start and written by nothing afterwards. -/
def Obligations.LenIsSetAtTheStartOnly : Prop :=
  (∀ image : List Word, (startState image).len = image.length) ∧
  ∀ s t : State, step s = .next t → t.len = s.len

/-- R16: `ip` starts at 0; a completed ADD or MUL adds 4 and goes on running; every other step leaves `ip` and ends the
run. -/
def Obligations.IpMovesOnlyByCompletedArithmetic : Prop :=
  (∀ image : List Word, (startState image).ip = 0) ∧
  ∀ s t : State, step s = .next t →
    (t.status = .running ∧ (s.opcodeAt = 1 ∨ s.opcodeAt = 2) ∧ t.ip = s.ip + 4) ∨
    (t.status ≠ .running ∧ t.ip = s.ip ∧ t.mem = s.mem)

/-- R18, R19: the payload registers start at NONE and 0; `err_op` is written exactly by NotEnoughParams and
ArithOverflow, with the operation at `ip`, and `err_val` exactly by UnknownOpCode, with the opcode cell; code 3 of
`err_op` is never written; under every other status the two registers mean nothing to the result of the run. -/
def Obligations.PayloadRegistersRecordTheError : Prop :=
  (∀ image : List Word, (startState image).errOp = .none ∧ (startState image).errVal = 0) ∧
  (∀ s t : State, step s = .next t →
    ((t.status = .errNotEnoughParams ∨ t.status = .errArithOverflow) →
      (s.opcodeAt = 1 ∧ t.errOp = .add) ∨ (s.opcodeAt = 2 ∧ t.errOp = .mul)) ∧
    (t.status ≠ .errNotEnoughParams → t.status ≠ .errArithOverflow → t.errOp = s.errOp) ∧
    (t.status = .errUnknownOpCode → t.errVal = Memory.read s.mem s.ip) ∧
    (t.status ≠ .errUnknownOpCode → t.errVal = s.errVal)) ∧
  ErrOp.none.code = 0 ∧ ErrOp.add.code = 1 ∧ ErrOp.mul.code = 2 ∧ (∀ e : ErrOp, e.code ≠ 3) ∧
  (∀ (s : State) (o : ErrOp), s.status ≠ .errNotEnoughParams → s.status ≠ .errArithOverflow →
    State.result { s with errOp := o } = s.result) ∧
  ∀ (s : State) (v : Word), s.status ≠ .errUnknownOpCode → State.result { s with errVal := v } = s.result

/-- R81: traps are precise. A step that raises an error writes no cell, leaves `ip` at the faulting instruction, and
changes `status` and the payload registers only; ProgramTooShort leaves `ip` at 0. -/
def Obligations.TrapsArePrecise : Prop :=
  (∀ s t : State, step s = .next t →
    (t.status = .errNotEnoughParams ∨ t.status = .errSegFault ∨ t.status = .errUnknownOpCode ∨
      t.status = .errArithOverflow) →
    t.mem = s.mem ∧ t.len = s.len ∧ t.ip = s.ip ∧
      (t.status ≠ .errUnknownOpCode → t.errVal = s.errVal) ∧
      (t.status = .errSegFault ∨ t.status = .errUnknownOpCode → t.errOp = s.errOp)) ∧
  (startState []).status = .errProgramTooShort ∧ (startState []).ip = 0 ∧ (startState []).len = 0

/-- R27, R28: no step writes a cell outside the array, and a step that stores does so in the cell its third operand cell
names. -/
def Obligations.OnlyTheDestinationCellIsWritten : Prop :=
  ∀ (s t : State) (a : Nat), step s = .next t →
    (s.len ≤ a ∨ (a : Int) ≠ (s.operandCell 3).toInt) → Memory.read t.mem a = Memory.read s.mem a

/-- R27: no step reads a cell outside the array: machines that agree in their registers and in the cells of the array
take steps that agree in them again. -/
def Obligations.StepReadsNoCellOutsideTheArray : Prop :=
  ∀ s s' t : State, SameRegisters s s' → (∀ a, a < s.len → Memory.read s.mem a = Memory.read s'.mem a) →
    step s = .next t →
    ∃ t', step s' = .next t' ∧ SameRegisters t t' ∧ ∀ a, a < s.len → Memory.read t.mem a = Memory.read t'.mem a

/-- R28, R44, R57, R71: a Halt and an Unknown opcode read no cell but the opcode: two running machines that hold the
same such cell at `ip` end their runs alike, whatever their other cells hold. -/
def Obligations.HaltAndUnknownReadOnlyTheOpcode : Prop :=
  ∀ s s' t : State, s.status = .running → SameRegisters s s' → s.ip < s.len →
    Memory.read s.mem s.ip = Memory.read s'.mem s.ip → s.opcodeAt ≠ 1 → s.opcodeAt ≠ 2 →
    step s = .next t →
    step s' = .next { s' with status := t.status, errVal := t.errVal }

/-- R37, R91 (row `ip+4`): the opcode cell that a completed ADD or MUL writes into the next instruction is the one the
next step decodes. The cell holds the result `v`, which is the exact result where that fits int64 and the exact result
wrapped where it does not (a step that then completes has wrapped it). The next step is an Add for 1, a Multiply for 2, a
Halt for 99, and UnknownOpCode with `v` for every other value. -/
def Obligations.NextOpcodeWrittenIsTheOneFetched : Prop :=
  ∀ (k : ArithOp) (s t : State), s.status = .running → s.opcodeAt = arithValue k → s.ip + 4 < s.len →
    (s.operandCell 3).toInt = (s.ip : Int) + 4 → step s = .next t → t.status = .running →
    ∃ v : Word,
      v.toInt = (s.exactAt k + 9223372036854775808) % 18446744073709551616 - 9223372036854775808 ∧
      (InInt64 (s.exactAt k) → v.toInt = s.exactAt k) ∧
      t.ip = s.ip + 4 ∧ Memory.read t.mem t.ip = v ∧
      (v.toInt = 1 → t.ip + 3 < t.len →
        step t = exec (.add (t.operandCell 1) (t.operandCell 2) (t.operandCell 3)) t) ∧
      (v.toInt = 2 → t.ip + 3 < t.len →
        step t = exec (.mul (t.operandCell 1) (t.operandCell 2) (t.operandCell 3)) t) ∧
      (v.toInt = 1 → t.len ≤ t.ip + 3 →
        step t = .next { t with status := .errNotEnoughParams, errOp := .add }) ∧
      (v.toInt = 2 → t.len ≤ t.ip + 3 →
        step t = .next { t with status := .errNotEnoughParams, errOp := .mul }) ∧
      (v.toInt = 99 → step t = .next { t with status := .halted }) ∧
      (v.toInt ≠ 1 → v.toInt ≠ 2 → v.toInt ≠ 99 →
        step t = .next { t with status := .errUnknownOpCode, errVal := v })

/-- R37, R91 (row `ip+5` to `ip+7`): an operand cell that a completed ADD or MUL writes into the next instruction is the
one the next ADD or MUL uses, beside the two operand cells it left alone. `j` is the operand cell written, and the result
`v` is as in `NextOpcodeWrittenIsTheOneFetched`. -/
def Obligations.NextOperandsWrittenAreTheOnesUsed : Prop :=
  ∀ (k : ArithOp) (s t : State) (j : Nat), s.status = .running → s.opcodeAt = arithValue k → s.ip + 7 < s.len →
    1 ≤ j → j ≤ 3 → (s.operandCell 3).toInt = (s.ip : Int) + 4 + (j : Int) → step s = .next t →
    t.status = .running →
    ∃ v : Word,
      v.toInt = (s.exactAt k + 9223372036854775808) % 18446744073709551616 - 9223372036854775808 ∧
      (InInt64 (s.exactAt k) → v.toInt = s.exactAt k) ∧
      t.opcodeAt = (s.operandCell 4).toInt ∧
      (t.opcodeAt = 1 →
        step t = exec (.add (if j = 1 then v else s.operandCell 5) (if j = 2 then v else s.operandCell 6)
          (if j = 3 then v else s.operandCell 7)) t) ∧
      (t.opcodeAt = 2 →
        step t = exec (.mul (if j = 1 then v else s.operandCell 5) (if j = 2 then v else s.operandCell 6)
          (if j = 3 then v else s.operandCell 7)) t)

/-- The canonical form of log entry 1: canonical memories that read the same in every cell are equal data. -/
def Obligations.EqualContentsAreEqualMemories : Prop :=
  ∀ m m' : Memory, Memory.wf m → Memory.wf m' → (∀ a, Memory.read m a = Memory.read m' a) → m = m'

/-! ### Start, result and run -/

/-- R51: a start sets every component: the memory array to the image, cell for cell, `len` to
its length, `ip` to 0, the payload registers to NONE and 0, and `status` to RUNNING, or to ERR_PROGRAM_TOO_SHORT for the
empty image. An image longer than MAX_LEN is refused. -/
def Obligations.StartSetsEveryComponent : Prop :=
  (∀ image : List Word, image.length ≤ Config.maxLen →
    ∃ s, start image = .next s ∧
      (∀ i (h : i < image.length), Memory.read s.mem i = image[i]) ∧ s.image = image ∧
      s.len = image.length ∧ s.ip = 0 ∧ s.errOp = .none ∧ s.errVal = 0 ∧
      s.status = if image.length = 0 then .errProgramTooShort else .running) ∧
  ∀ image : List Word, Config.maxLen < image.length → start image = .refused .imageTooLong

/-- R24, R87 at the empty image, which is the model's choice for the state with nothing loaded (DESIGN CHOICE, log
entry 2): the values of every field of the reset state. -/
def Obligations.ResetIsTheStartOfTheEmptyImage : Prop :=
  State.reset = startState [] ∧ Memory.wf State.reset.mem ∧
  (∀ a, Memory.read State.reset.mem a = 0) ∧ State.reset.len = 0 ∧ State.reset.ip = 0 ∧
  State.reset.status = .errProgramTooShort ∧ State.reset.errOp = .none ∧ State.reset.errVal = 0

/-- R59: the result returned to the host for each final status, and none while RUNNING; the two success statuses give
the same result. -/
def Obligations.ResultOfEachStatus : Prop :=
  ∀ s : State,
    (s.status = .running → s.result = none) ∧
    (s.status = .halted → s.result = some (.ok s.image)) ∧
    (s.status = .endOfMemory → s.result = some (.ok s.image)) ∧
    (s.status = .errProgramTooShort → s.result = some (.err .programTooShort)) ∧
    (s.status = .errNotEnoughParams → s.errOp = .add → s.result = some (.err (.notEnoughParams .add))) ∧
    (s.status = .errNotEnoughParams → s.errOp = .mul → s.result = some (.err (.notEnoughParams .mul))) ∧
    (s.status = .errSegFault → s.result = some (.err .segFault)) ∧
    (s.status = .errUnknownOpCode → s.result = some (.err (.unknownOpCode s.errVal))) ∧
    (s.status = .errArithOverflow → s.errOp = .add → s.result = some (.err (.arithOverflow .add))) ∧
    (s.status = .errArithOverflow → s.errOp = .mul → s.result = some (.err (.arithOverflow .mul)))

/-- R60: every run terminates, within ⌊len/4⌋ + 1 steps after its start; the only step of a run that goes on RUNNING is
a completed Add or Multiply, which raises `ip` by 4 and keeps it at most `len`. -/
def Obligations.EveryRunEndsWithinItsStepBound : Prop :=
  (∀ image : List Word, ∃ (n : Nat) (t : State), n ≤ image.length / 4 + 1 ∧
    Host.Core.run core n (startState image) = .next t ∧ t.status ≠ .running) ∧
  ∀ s t : State, Reachable s → step s = .next t → t.status = .running →
    (s.opcodeAt = 1 ∨ s.opcodeAt = 2) ∧ t.ip = s.ip + 4 ∧ t.ip ≤ t.len

/-- R62, R86: every image that can be presented has a result, and it is what the loop of R62 gives. The loop itself ends
with a result for every list of cells; for one longer than MAX_LEN that says nothing of the hardware, which is not started
on it (log entry 4). -/
def Obligations.RunAnswersEveryImage : Prop :=
  (∀ image : List Word, ∃ r, runImage image = some r) ∧
  ∀ image : List Word, image.length ≤ Config.maxLen → ∃ r, run image = some r ∧ runImage image = some r

/-- R85: the number of completed ADD and MUL steps is `ip / 4` at every state of a run. While RUNNING every step taken was
one of them; at the terminal state of a non-empty image all but the ending step were; the empty image takes no step. -/
def Obligations.CompletedStepsAreIpOverFour : Prop :=
  ∀ (image : List Word) (n : Nat) (t : State),
    Host.Core.run core n (startState image) = .next t →
    (t.status = .running → t.ip = 4 * n) ∧
    (t.status ≠ .running → image ≠ [] → t.ip + 4 = 4 * n) ∧
    (image = [] → t.ip = 0 ∧ n = 0)

/-! ### Invariants -/

/-- Every step keeps the invariant: `ip` stays a multiple of 4 and never exceeds `len` (R21), and the memory list stays
canonical and inside the array, which is the model's choice of how the array is held (DESIGN CHOICE, log entry 1). -/
def Obligations.StepKeepsTheInvariant : Prop :=
  ∀ s t : State, s.Inv → step s = .next t → t.Inv

/-- Every start, of whatever image, meets the invariant, and so does the reset state. What it says of `ip` is R21 and R51;
that the memory list is canonical is the model's choice of how the array is held (DESIGN CHOICE, log entry 1), and that
the reset state is the start of the empty image is the model's choice too (DESIGN CHOICE, log entry 2). -/
def Obligations.StartMeetsTheInvariant : Prop :=
  State.reset.Inv ∧ ∀ image : List Word, (startState image).Inv

/-- R17, R18, R19, R22, R74: the status and the payload registers say truly why the machine is where it is, and what
they say can be read back from `ip` and `mem`. Every step keeps that, from every state that has it. -/
def Obligations.StepKeepsTheCauseTrue : Prop :=
  ∀ s t : State, s.Inv → s.CauseHolds → step s = .next t → t.CauseHolds

/-- At every start, of whatever image, the status and the payload registers say truly why the machine is where it is (R51,
R75), and so they do at the reset state, which is the start of the empty image by the model's choice (DESIGN CHOICE, log
entry 2). -/
def Obligations.StartStatesItsCause : Prop :=
  State.reset.CauseHolds ∧ ∀ image : List Word, (startState image).CauseHolds

/-- R21, R22: at every state of a run `ip` is a multiple of 4 and at most `len`; while RUNNING, `ip < len` or the next
step is the end-of-memory stop; at END_OF_MEMORY, `ip = len` and `len` is a positive multiple of 4. -/
def Obligations.StatesOfARunKeepIpInside : Prop :=
  ∀ s : State, Reachable s →
    s.ip % 4 = 0 ∧ s.ip ≤ s.len ∧
    (s.status = .running → s.ip < s.len ∨ step s = .next { s with status := .endOfMemory }) ∧
    (s.status = .endOfMemory → s.ip = s.len ∧ 0 < s.len ∧ s.len % 4 = 0)
end

