-- ==== Sys2Proof/Laws/Alu.lean ====
section
/-! SUPPORT. What the ALU can answer (R63). -/

namespace Sys2Proof.Machine

theorem fitsInt64_iff (r : Int) :
    fitsInt64 r = true ↔ -9223372036854775808 ≤ r ∧ r ≤ 9223372036854775807 := by
  rw [fitsInt64, decide_eq_true_iff, int64Min, int64Max]

/-- A cell holds every int64 as it is. -/
theorem toInt_ofInt_of_fits (r : Int) (h : fitsInt64 r = true) : (BitVec.ofInt 64 r).toInt = r := by
  rw [fitsInt64_iff] at h
  rw [BitVec.toInt_ofInt, Int.bmod_def]
  split <;> omega

theorem fitsInt64_toInt (v : Word) : fitsInt64 v.toInt = true := by
  have h1 := @BitVec.le_toInt 64 v
  have h2 := @BitVec.toInt_lt 64 v
  rw [fitsInt64_iff]
  norm_num at h1 h2
  omega

theorem fitsInt64_wrap64 (r : Int) : fitsInt64 (wrap64 r) = true := by
  rw [fitsInt64_iff, wrap64]
  omega

/-- Wrapping leaves a number that fits as it is. -/
theorem wrap64_of_fits (r : Int) (h : fitsInt64 r = true) : wrap64 r = r := by
  rw [fitsInt64_iff] at h
  rw [wrap64]
  omega

/-- Everything the ALU can answer: the exact result where it fits, and else what the overflow mode says (R63). -/
theorem alu_cases (mode : OverflowMode) (k : ArithOp) (a b : Word) :
    (fitsInt64 (exactResult k a.toInt b.toInt) = true ∧
      ∃ r, alu mode k a b = some r ∧ r.toInt = exactResult k a.toInt b.toInt) ∨
    (fitsInt64 (exactResult k a.toInt b.toInt) = false ∧ mode = .wrap ∧
      ∃ r, alu mode k a b = some r ∧ r.toInt = wrap64 (exactResult k a.toInt b.toInt)) ∨
    (fitsInt64 (exactResult k a.toInt b.toInt) = false ∧ mode = .fault ∧ alu mode k a b = none) := by
  cases h : fitsInt64 (exactResult k a.toInt b.toInt) with
  | true => exact .inl ⟨rfl, _, by simp [alu, narrow, h], toInt_ofInt_of_fits _ h⟩
  | false =>
    cases mode with
    | fault => exact .inr (.inr ⟨rfl, rfl, by simp [alu, narrow, h]⟩)
    | wrap => exact .inr (.inl ⟨rfl, rfl, _, by simp [alu, narrow, h], toInt_ofInt_of_fits _ (fitsInt64_wrap64 _)⟩)

/-- In range both modes give the exact result (R63). -/
theorem alu_of_fits (mode : OverflowMode) (k : ArithOp) (a b : Word)
    (h : fitsInt64 (exactResult k a.toInt b.toInt) = true) :
    alu mode k a b = some (BitVec.ofInt 64 (exactResult k a.toInt b.toInt)) := by simp [alu, narrow, h]

/-- Only the fault mode answers OVERFLOW, and only out of range (R79). -/
theorem alu_eq_none (mode : OverflowMode) (k : ArithOp) (a b : Word) (h : alu mode k a b = none) :
    mode = .fault ∧ fitsInt64 (exactResult k a.toInt b.toInt) = false := by
  rcases alu_cases mode k a b with ⟨_, r, hr, _⟩ | ⟨_, _, r, hr, _⟩ | ⟨hf, hm, _⟩
  · rw [hr] at h; cases h
  · rw [hr] at h; cases h
  · exact ⟨hm, hf⟩

end Sys2Proof.Machine
end

