-- ==== Sys2Proof/Laws/Decode.lean ====
section
/-! SUPPORT. What the decoder's classification can answer, and the shape of format A. -/

namespace Sys2Proof

theorem decodeOp_one : decodeOp 1 = .arith .add := by decide
theorem decodeOp_two : decodeOp 2 = .arith .mul := by decide
theorem decodeOp_ninetyNine : decodeOp 99 = .halt := by decide

theorem decodeOp_opcode (k : ArithOp) : decodeOp k.opcode = .arith k := by cases k <;> decide

/-- Everything the classification can answer, each answer with the values it is given for (R42). -/
theorem decodeOp_cases (v : Word) :
    (∃ k, v = k.opcode ∧ decodeOp v = .arith k) ∨ (v = haltOpcode ∧ decodeOp v = .halt) ∨
      (v ≠ 1 ∧ v ≠ 2 ∧ v ≠ 99 ∧ decodeOp v = .unknown v) := by
  by_cases h1 : v = 1
  · exact .inl ⟨.add, h1, by rw [h1]; exact decodeOp_one⟩
  by_cases h2 : v = 2
  · exact .inl ⟨.mul, h2, by rw [h2]; exact decodeOp_two⟩
  by_cases h3 : v = 99
  · exact .inr (.inl ⟨h3, by rw [h3]; exact decodeOp_ninetyNine⟩)
  · exact .inr (.inr ⟨h1, h2, h3, (if_neg h1).trans ((if_neg h2).trans (if_neg h3))⟩)

theorem decode_cons (v : Word) (rest : List Word) :
    decode (v :: rest) = match decodeOp v with
      | .arith k => (match rest with
        | src1 :: src2 :: dest :: after => .instr (k.instr src1 src2 dest) after
        | _ => .notEnoughParams k)
      | .halt => .instr .hlt rest
      | .unknown u => .unknownOpCode u := rfl

/-- Format A with all four cells (R43). -/
theorem decode_arith (k : ArithOp) (src1 src2 dest : Word) (after : List Word) :
    decode (k.opcode :: src1 :: src2 :: dest :: after) = .instr (k.instr src1 src2 dest) after := by
  rw [decode_cons, decodeOp_opcode]

/-- Format A with an operand cell missing (R70). -/
theorem decode_arith_short (k : ArithOp) (rest : List Word) (h : rest.length < 3) :
    decode (k.opcode :: rest) = .notEnoughParams k := by
  rw [decode_cons, decodeOp_opcode]
  match rest, h with
  | [], _ => rfl
  | [_], _ => rfl
  | [_, _], _ => rfl

theorem decode_unknown (v : Word) (rest : List Word) (h : decodeOp v = .unknown v) :
    decode (v :: rest) = .unknownOpCode v := by rw [decode_cons, h]

theorem decode_halt (rest : List Word) : decode (haltOpcode :: rest) = .instr .hlt rest := by
  rw [decode_cons, haltOpcode, decodeOp_ninetyNine]

/-- An operation's opcode is its number in the opcode map (R41). -/
theorem opcode_toInt (k : ArithOp) : k.opcode.toInt = (match k with | .add => 1 | .mul => 2) := by cases k <;> decide

end Sys2Proof
end

