-- ==== Sys2Proof/Laws/Memory.lean ====
section
/-! SUPPORT. The laws of the memory array: a read after a write, the cells a write leaves alone, the canonical form. -/

namespace Sys2Proof.Machine

theorem read_erase_other (m : Memory) (a b : Nat) (h : b ≠ a) :
    Memory.read (Memory.erase m a) b = Memory.read m b := by
  induction m with
  | nil => rfl
  | cons e rest ih =>
    obtain ⟨c, w⟩ := e
    by_cases hc : c = a
    · subst hc
      simpa [Memory.erase, Memory.read, h] using ih
    · have : Memory.erase ((c, w) :: rest) a = (c, w) :: Memory.erase rest a := by simp [Memory.erase, hc]
      rw [this, Memory.read, Memory.read, ih]

theorem read_unlisted (m : Memory) (a : Nat) (h : ∀ e ∈ m, e.1 ≠ a) : Memory.read m a = unlisted := by
  induction m with
  | nil => rfl
  | cons e rest ih =>
    obtain ⟨c, w⟩ := e
    have hc : a ≠ c := fun hh => h (c, w) (by simp) hh.symm
    rw [Memory.read, if_neg hc]
    exact ih fun e he => h e (by simp [he])

theorem erase_key_ne (m : Memory) (a : Nat) : ∀ e ∈ Memory.erase m a, e.1 ≠ a := by
  intro e he
  simpa using (List.mem_filter.1 he).2

theorem read_insert_same (m : Memory) (a : Nat) (v : Word) (h : ∀ e ∈ m, e.1 ≠ a) :
    Memory.read (Memory.insert m a v) a = v := by
  induction m with
  | nil => simp [Memory.insert, Memory.read]
  | cons e rest ih =>
    obtain ⟨c, w⟩ := e
    have hc : a ≠ c := fun hh => h (c, w) (by simp) hh.symm
    by_cases hlt : a < c
    · simp [Memory.insert, Memory.read, hlt]
    · rw [Memory.insert, if_neg hlt, Memory.read, if_neg hc]
      exact ih fun e he => h e (by simp [he])

theorem read_insert_other (m : Memory) (a b : Nat) (v : Word) (h : b ≠ a) :
    Memory.read (Memory.insert m a v) b = Memory.read m b := by
  induction m with
  | nil => simp [Memory.insert, Memory.read, h]
  | cons e rest ih =>
    obtain ⟨c, w⟩ := e
    by_cases hlt : a < c
    · rw [Memory.insert, if_pos hlt, Memory.read, if_neg h]
    · rw [Memory.insert, if_neg hlt, Memory.read, Memory.read, ih]

/-- A read returns the value of the latest write to its cell (R33, R35). -/
@[simp] theorem read_write_same (m : Memory) (a : Nat) (v : Word) : Memory.read (Memory.write m a v) a = v := by
  by_cases hv : v = unlisted
  · rw [Memory.write, if_pos hv, read_unlisted _ _ (erase_key_ne m a), hv]
  · rw [Memory.write, if_neg hv, read_insert_same _ _ _ (erase_key_ne m a)]

/-- A write leaves every other cell alone (R30, R33). -/
theorem read_write_other (m : Memory) (a b : Nat) (v : Word) (h : b ≠ a) :
    Memory.read (Memory.write m a v) b = Memory.read m b := by
  by_cases hv : v = unlisted
  · rw [Memory.write, if_pos hv, read_erase_other _ _ _ h]
  · rw [Memory.write, if_neg hv, read_insert_other _ _ _ _ h, read_erase_other _ _ _ h]

theorem read_write (m : Memory) (a b : Nat) (v : Word) :
    Memory.read (Memory.write m a v) b = if b = a then v else Memory.read m b := by
  by_cases h : b = a
  · rw [if_pos h, h, read_write_same]
  · rw [if_neg h, read_write_other _ _ _ _ h]

/-! The entries an operation leaves. -/

theorem mem_insert (m : Memory) (a : Nat) (v : Word) (e : Nat × Word) :
    e ∈ Memory.insert m a v ↔ e = (a, v) ∨ e ∈ m := by
  induction m with
  | nil => simp [Memory.insert]
  | cons f rest ih =>
    obtain ⟨c, w⟩ := f
    by_cases hlt : a < c
    · simp [Memory.insert, hlt]
    · rw [Memory.insert, if_neg hlt, List.mem_cons, ih, List.mem_cons]
      tauto

/-- Every entry after a write is the written cell's or was there before. -/
theorem mem_write (m : Memory) (a : Nat) (v : Word) (e : Nat × Word) (h : e ∈ Memory.write m a v) :
    e = (a, v) ∨ e ∈ m := by
  by_cases hv : v = unlisted
  · rw [Memory.write, if_pos hv] at h
    exact .inr (List.mem_filter.1 h).1
  · rw [Memory.write, if_neg hv, mem_insert] at h
    exact h.imp_right fun h => (List.mem_filter.1 h).1

/-! Every memory operation keeps the canonical form. -/

theorem erase_wf (m : Memory) (a : Nat) (h : Memory.wf m) : Memory.wf (Memory.erase m a) :=
  ⟨h.1.filter _, fun e he => h.2 e (List.mem_filter.1 he).1⟩

theorem insert_wf (m : Memory) (a : Nat) (v : Word) (h : Memory.wf m) (ha : ∀ e ∈ m, e.1 ≠ a)
    (hv : v ≠ unlisted) : Memory.wf (Memory.insert m a v) := by
  refine ⟨?_, fun e he => ?_⟩
  · have hs := h.1
    clear h
    induction m with
    | nil => simp [Memory.insert]
    | cons f rest ih =>
      obtain ⟨c, w⟩ := f
      have hc : c ≠ a := ha (c, w) (by simp)
      rw [List.pairwise_cons] at hs
      by_cases hlt : a < c
      · rw [Memory.insert, if_pos hlt, List.pairwise_cons, List.pairwise_cons]
        refine ⟨fun e he => ?_, hs⟩
        rcases List.mem_cons.1 he with rfl | he
        · exact hlt
        · exact lt_trans hlt (hs.1 e he)
      · rw [Memory.insert, if_neg hlt, List.pairwise_cons]
        refine ⟨fun e he => ?_, ih (fun e he => ha e (by simp [he])) hs.2⟩
        rcases (mem_insert _ _ _ _).1 he with rfl | he
        · simp only; omega
        · exact hs.1 e he
  · rcases (mem_insert _ _ _ _).1 he with rfl | he
    · exact hv
    · exact h.2 e he

theorem write_wf (m : Memory) (a : Nat) (v : Word) (h : Memory.wf m) : Memory.wf (Memory.write m a v) := by
  by_cases hv : v = unlisted
  · rw [Memory.write, if_pos hv]
    exact erase_wf m a h
  · rw [Memory.write, if_neg hv]
    exact insert_wf _ a v (erase_wf m a h) (erase_key_ne m a) hv

theorem writeCells_wf (m : Memory) (a : Nat) (cells : List Word) (h : Memory.wf m) :
    Memory.wf (Memory.writeCells m a cells) := by
  induction cells generalizing m a with
  | nil => exact h
  | cons v rest ih => exact ih _ _ (write_wf m a v h)

theorem mem_ofCells (a : Nat) (cells : List Word) (e : Nat × Word) (h : e ∈ Memory.ofCells a cells) :
    a ≤ e.1 ∧ e.1 < a + cells.length ∧ e.2 ≠ unlisted := by
  induction cells generalizing a with
  | nil => simp [Memory.ofCells] at h
  | cons v rest ih =>
    by_cases hv : v = unlisted
    · rw [Memory.ofCells, if_pos hv] at h
      have := ih (a + 1) h
      exact ⟨by omega, by simp; omega, this.2.2⟩
    · rw [Memory.ofCells, if_neg hv] at h
      rcases List.mem_cons.1 h with rfl | h
      · exact ⟨le_refl _, by simp, hv⟩
      · have := ih (a + 1) h
        exact ⟨by omega, by simp; omega, this.2.2⟩

theorem ofCells_wf (a : Nat) (cells : List Word) : Memory.wf (Memory.ofCells a cells) := by
  refine ⟨?_, fun e he => (mem_ofCells a cells e he).2.2⟩
  induction cells generalizing a with
  | nil => exact List.Pairwise.nil
  | cons v rest ih =>
    by_cases hv : v = unlisted
    · rw [Memory.ofCells, if_pos hv]
      exact ih (a + 1)
    · rw [Memory.ofCells, if_neg hv, List.pairwise_cons]
      exact ⟨fun e he => (mem_ofCells (a + 1) rest e he).1, ih (a + 1)⟩

/-- Reset lists no cell, and that is canonical. -/
theorem reset_mem_wf : Memory.wf State.reset.mem := ⟨List.Pairwise.nil, fun _ h => absurd h List.not_mem_nil⟩

/-! What a row of cells reads as. -/

@[simp] theorem slice_length (m : Memory) (a n : Nat) : (Memory.slice m a n).length = n := by
  induction n generalizing a with
  | zero => rfl
  | succ n ih => simp [Memory.slice, ih]

theorem slice_getElem (m : Memory) (a n i : Nat) (h : i < (Memory.slice m a n).length) :
    (Memory.slice m a n)[i] = Memory.read m (a + i) := by
  induction n generalizing a i with
  | zero => simp at h
  | succ n ih =>
    cases i with
    | zero => simp [Memory.slice]
    | succ i =>
      have := ih (a + 1) i (by simpa using h)
      simpa [Memory.slice, Nat.add_assoc, Nat.add_comm 1] using this

/-- The memory made from a list of cells holds them, cell for cell (R51). -/
theorem read_ofCells (a i : Nat) (cells : List Word) (h : i < cells.length) :
    Memory.read (Memory.ofCells a cells) (a + i) = cells[i] := by
  induction cells generalizing a i with
  | nil => simp at h
  | cons v rest ih =>
    cases i with
    | zero =>
      by_cases hv : v = unlisted
      · rw [Memory.ofCells, if_pos hv]
        refine (read_unlisted _ _ fun e he => ?_).trans (by simp [hv])
        have := (mem_ofCells (a + 1) rest e he).1
        omega
      · simp [Memory.ofCells, hv, Memory.read]
    | succ i =>
      have hi := ih (a + 1) i (by simpa using h)
      rw [Nat.add_assoc, Nat.add_comm 1] at hi
      by_cases hv : v = unlisted
      · rw [Memory.ofCells, if_pos hv, hi, List.getElem_cons_succ]
      · rw [Memory.ofCells, if_neg hv, Memory.read, if_neg (by omega), hi, List.getElem_cons_succ]

end Sys2Proof.Machine
end

