-- ==== Sys2Proof/Laws/State.lean ====
section
/-! SUPPORT. What each update of the state does to each field. -/

namespace Sys2Proof.Machine

variable (s : State)

/-! A write changes the memory array only (R14, R68). -/

@[simp] theorem State.writeCell_mem (a : Nat) (v : Word) : (s.writeCell a v).mem = Memory.write s.mem a v := rfl
@[simp] theorem State.writeCell_len (a : Nat) (v : Word) : (s.writeCell a v).len = s.len := rfl
@[simp] theorem State.writeCell_ip (a : Nat) (v : Word) : (s.writeCell a v).ip = s.ip := rfl
@[simp] theorem State.writeCell_status (a : Nat) (v : Word) : (s.writeCell a v).status = s.status := rfl
@[simp] theorem State.writeCell_errOp (a : Nat) (v : Word) : (s.writeCell a v).errOp = s.errOp := rfl
@[simp] theorem State.writeCell_errVal (a : Nat) (v : Word) : (s.writeCell a v).errVal = s.errVal := rfl

/-! A write through a position operand changes the memory array only (R28, R45). -/

@[simp] theorem State.writeOperand_mem (a v : Word) : (s.writeOperand a v).mem = Memory.write s.mem (cellIndex a) v := rfl
@[simp] theorem State.writeOperand_len (a v : Word) : (s.writeOperand a v).len = s.len := rfl
@[simp] theorem State.writeOperand_ip (a v : Word) : (s.writeOperand a v).ip = s.ip := rfl
@[simp] theorem State.writeOperand_status (a v : Word) : (s.writeOperand a v).status = s.status := rfl
@[simp] theorem State.writeOperand_errOp (a v : Word) : (s.writeOperand a v).errOp = s.errOp := rfl
@[simp] theorem State.writeOperand_errVal (a v : Word) : (s.writeOperand a v).errVal = s.errVal := rfl

/-! The advance changes `ip` only (R16). -/

@[simp] theorem State.advance_mem : (s.advance).mem = s.mem := rfl
@[simp] theorem State.advance_len : (s.advance).len = s.len := rfl
@[simp] theorem State.advance_ip : (s.advance).ip = s.ip + 4 := rfl
@[simp] theorem State.advance_status : (s.advance).status = s.status := rfl
@[simp] theorem State.advance_errOp : (s.advance).errOp = s.errOp := rfl
@[simp] theorem State.advance_errVal : (s.advance).errVal = s.errVal := rfl

/-! The end of a run changes `status` only (R54, R71). -/

@[simp] theorem State.endRun_mem (st : Status) : (s.endRun st).mem = s.mem := rfl
@[simp] theorem State.endRun_len (st : Status) : (s.endRun st).len = s.len := rfl
@[simp] theorem State.endRun_ip (st : Status) : (s.endRun st).ip = s.ip := rfl
@[simp] theorem State.endRun_status (st : Status) : (s.endRun st).status = st := rfl
@[simp] theorem State.endRun_errOp (st : Status) : (s.endRun st).errOp = s.errOp := rfl
@[simp] theorem State.endRun_errVal (st : Status) : (s.endRun st).errVal = s.errVal := rfl

/-! Taking an exception changes `status` and the payload registers only (R81). -/

@[simp] theorem State.raise_mem (e : ExecutionError) : (s.raise e).mem = s.mem := rfl
@[simp] theorem State.raise_len (e : ExecutionError) : (s.raise e).len = s.len := rfl
@[simp] theorem State.raise_ip (e : ExecutionError) : (s.raise e).ip = s.ip := rfl
@[simp] theorem State.raise_status (e : ExecutionError) : (s.raise e).status = e.status := rfl
@[simp] theorem State.raise_errOp (e : ExecutionError) : (s.raise e).errOp = e.errOpAfter s.errOp := rfl
@[simp] theorem State.raise_errVal (e : ExecutionError) : (s.raise e).errVal = e.errValAfter s.errVal := rfl

/-! Placing an instruction changes the memory array, `len` and `status` only (log entry 2). -/

@[simp] theorem State.placeInstr_mem (cells : List Word) :
    (s.placeInstr cells).mem = Memory.writeCells s.mem s.ip cells := rfl
@[simp] theorem State.placeInstr_len (cells : List Word) :
    (s.placeInstr cells).len = max s.len (s.ip + cells.length) := rfl
@[simp] theorem State.placeInstr_ip (cells : List Word) : (s.placeInstr cells).ip = s.ip := rfl
@[simp] theorem State.placeInstr_status (cells : List Word) : (s.placeInstr cells).status = .running := rfl
@[simp] theorem State.placeInstr_errOp (cells : List Word) : (s.placeInstr cells).errOp = s.errOp := rfl
@[simp] theorem State.placeInstr_errVal (cells : List Word) : (s.placeInstr cells).errVal = s.errVal := rfl

/-! What each error writes (R18, R19, R74). -/

@[simp] theorem raise_notEnoughParams (k : ArithOp) : s.raise (.notEnoughParams k) =
    { s with status := .errNotEnoughParams, errOp := ErrOp.ofArith k } := rfl
@[simp] theorem raise_segFault : s.raise .segFault = { s with status := .errSegFault } := rfl
@[simp] theorem raise_unknownOpCode (v : Word) : s.raise (.unknownOpCode v) =
    { s with status := .errUnknownOpCode, errVal := v } := rfl
@[simp] theorem raise_arithOverflow (k : ArithOp) : s.raise (.arithOverflow k) =
    { s with status := .errArithOverflow, errOp := ErrOp.ofArith k } := rfl
@[simp] theorem raise_programTooShort : s.raise .programTooShort = { s with status := .errProgramTooShort } := rfl

end Sys2Proof.Machine
end

