-- ==== Sys2Proof/Laws/Exec.lean ====
section
/-! SUPPORT. What each meaning can do: one inversion lemma for the shared procedure of ADD and MUL, one equation per
instruction. -/

namespace Sys2Proof.Machine

theorem valid_iff (s : State) (a : Word) : s.valid a = true ↔ 0 ≤ a.toInt ∧ a.toInt < (s.len : Int) := by
  simp [State.valid]

theorem operandsPresent_iff (s : State) : s.operandsPresent = true ↔ s.ip + 3 < s.len := by
  simp [State.operandsPresent]

theorem operandsValid_iff (s : State) (src1 src2 dest : Word) :
    s.operandsValid src1 src2 dest = true ↔
      (0 ≤ src1.toInt ∧ src1.toInt < (s.len : Int)) ∧ (0 ≤ src2.toInt ∧ src2.toInt < (s.len : Int)) ∧
        (0 ≤ dest.toInt ∧ dest.toInt < (s.len : Int)) := by
  simp [State.operandsValid, valid_iff, and_assoc]

/-- A valid address names a cell inside the array. -/
theorem cellIndex_lt (s : State) (a : Word) (h : s.valid a = true) : cellIndex a < s.len := by
  rw [valid_iff] at h
  simp only [cellIndex]
  omega

/-- Everything `ExecArith` can do, in the order of its checks (R64, R80). -/
theorem execArith_cases (mode : OverflowMode) (k : ArithOp) (src1 src2 dest : Word) (s : State) :
    (¬ s.ip + 3 < s.len ∧ execArith mode k src1 src2 dest s = s.raise (.notEnoughParams k)) ∨
    (s.ip + 3 < s.len ∧ s.operandsValid src1 src2 dest = false ∧
      execArith mode k src1 src2 dest s = s.raise .segFault) ∨
    (s.ip + 3 < s.len ∧ s.operandsValid src1 src2 dest = true ∧
      alu mode k (s.readOperand src1) (s.readOperand src2) = none ∧
      execArith mode k src1 src2 dest s = s.raise (.arithOverflow k)) ∨
    (s.ip + 3 < s.len ∧ s.operandsValid src1 src2 dest = true ∧
      ∃ r, alu mode k (s.readOperand src1) (s.readOperand src2) = some r ∧
        execArith mode k src1 src2 dest s = (s.writeOperand dest r).advance) := by
  by_cases hp : s.ip + 3 < s.len
  · have hp' := (operandsPresent_iff s).2 hp
    cases hv : s.operandsValid src1 src2 dest with
    | false => exact .inr (.inl ⟨hp, rfl, by simp [execArith, hp', hv]⟩)
    | true =>
      cases ha : alu mode k (s.readOperand src1) (s.readOperand src2) with
      | none => exact .inr (.inr (.inl ⟨hp, rfl, rfl, by simp only [execArith, hp', hv, ha, if_true]⟩))
      | some r => exact .inr (.inr (.inr ⟨hp, rfl, r, rfl, by simp only [execArith, hp', hv, ha, if_true]⟩))
  · have hp' : s.operandsPresent = false := by
      rw [Bool.eq_false_iff, Ne, operandsPresent_iff]
      exact hp
    exact .inl ⟨hp, by simp [execArith, hp']⟩

/-- The two arithmetic instructions are the shared procedure under the configured mode (R65, R66). -/
theorem exec_arith (k : ArithOp) (src1 src2 dest : Word) (s : State) :
    exec (k.instr src1 src2 dest) s = .next (execArith Config.overflowMode k src1 src2 dest s) := by
  cases k <;> rfl

theorem exec_hlt (s : State) : exec .hlt s = .next (s.endRun .halted) := rfl

end Sys2Proof.Machine
end

