-- ==== Sys2Proof/Laws/Step.lean ====
section
/-! SUPPORT. What the fetch hands the decoder, and what one step can do. -/

namespace Sys2Proof.Machine

theorem fetchCells_full (s : State) (h : s.ip + 3 < s.len) :
    s.fetchCells = [Memory.read s.mem s.ip, Memory.read s.mem (s.ip + 1), Memory.read s.mem (s.ip + 2),
      Memory.read s.mem (s.ip + 3)] := by
  have : min maxInstrCells (s.len - s.ip) = 4 := by simp only [maxInstrCells]; omega
  rw [State.fetchCells, this]
  rfl

/-- Behind the loop test there is an opcode cell, and the cells after it are as many as exist, three at most. -/
theorem fetchCells_cons (s : State) (h : s.ip < s.len) :
    ∃ rest, s.fetchCells = Memory.read s.mem s.ip :: rest ∧ rest.length = min 3 (s.len - s.ip - 1) := by
  obtain ⟨n, hn⟩ : ∃ n, min maxInstrCells (s.len - s.ip) = n + 1 := ⟨_, (Nat.succ_pred (by simp only [maxInstrCells]; omega)).symm⟩
  refine ⟨Memory.slice s.mem (s.ip + 1) n, by rw [State.fetchCells, hn]; rfl, ?_⟩
  simp only [maxInstrCells] at hn
  rw [slice_length]
  omega

theorem step_running (s : State) (hr : s.status = .running) (h : s.ip < s.len) :
    step s = dispatchDecoded (decode s.fetchCells) s := by
  rw [step, sequence, if_pos hr, if_pos h]

theorem step_terminal (s : State) (hr : s.status ≠ .running) : step s = .fault .noEnabledStep := by
  rw [step, sequence, if_neg hr]

theorem step_endOfMemory (s : State) (hr : s.status = .running) (h : s.len ≤ s.ip) :
    step s = .next (s.endRun .endOfMemory) := by
  rw [step, sequence, if_pos hr, if_neg (by omega)]

/-- A step at an Add or Multiply is the shared procedure on the three operand cells, whether or not they exist: where
one is missing, the procedure raises NotEnoughParams before it looks at their values (R64, R70). -/
theorem step_arith (s : State) (k : ArithOp) (hr : s.status = .running) (h : s.ip < s.len)
    (ho : Memory.read s.mem s.ip = k.opcode) :
    step s = .next (execArith Config.overflowMode k (Memory.read s.mem (s.ip + 1)) (Memory.read s.mem (s.ip + 2))
      (Memory.read s.mem (s.ip + 3)) s) := by
  rw [step_running s hr h]
  by_cases hp : s.ip + 3 < s.len
  · rw [fetchCells_full s hp, ho, decode_arith, dispatchDecoded, exec_arith]
  · obtain ⟨rest, hf, hl⟩ := fetchCells_cons s h
    rw [hf, ho, decode_arith_short k rest (by omega), dispatchDecoded]
    rcases execArith_cases Config.overflowMode k (Memory.read s.mem (s.ip + 1)) (Memory.read s.mem (s.ip + 2))
      (Memory.read s.mem (s.ip + 3)) s with ⟨_, he⟩ | ⟨hp', _⟩ | ⟨hp', _⟩ | ⟨hp', _⟩
    · rw [he]
    all_goals exact absurd hp' hp

theorem step_hlt (s : State) (hr : s.status = .running) (h : s.ip < s.len)
    (ho : Memory.read s.mem s.ip = haltOpcode) : step s = .next (s.endRun .halted) := by
  obtain ⟨rest, hf, _⟩ := fetchCells_cons s h
  rw [step_running s hr h, hf, ho, decode_halt, dispatchDecoded, exec_hlt]

theorem step_unknown (s : State) (hr : s.status = .running) (h : s.ip < s.len)
    (ho : decodeOp (Memory.read s.mem s.ip) = .unknown (Memory.read s.mem s.ip)) :
    step s = .next (s.raise (.unknownOpCode (Memory.read s.mem s.ip))) := by
  obtain ⟨rest, hf, _⟩ := fetchCells_cons s h
  rw [step_running s hr h, hf, decode_unknown _ _ ho, dispatchDecoded]

/-- Everything a step can do (R52, R53): it is not enabled, or it ends the run at the end of memory, or it runs the
shared procedure of ADD and MUL, or it halts, or it raises UnknownOpCode. -/
theorem step_cases (s : State) :
    (s.status ≠ .running ∧ step s = .fault .noEnabledStep) ∨
    (s.status = .running ∧ s.len ≤ s.ip ∧ step s = .next (s.endRun .endOfMemory)) ∨
    (s.status = .running ∧ s.ip < s.len ∧ ∃ k : ArithOp, Memory.read s.mem s.ip = k.opcode ∧
      step s = .next (execArith Config.overflowMode k (Memory.read s.mem (s.ip + 1)) (Memory.read s.mem (s.ip + 2))
        (Memory.read s.mem (s.ip + 3)) s)) ∨
    (s.status = .running ∧ s.ip < s.len ∧ Memory.read s.mem s.ip = haltOpcode ∧
      step s = .next (s.endRun .halted)) ∨
    (s.status = .running ∧ s.ip < s.len ∧ Memory.read s.mem s.ip ≠ 1 ∧ Memory.read s.mem s.ip ≠ 2 ∧
      Memory.read s.mem s.ip ≠ 99 ∧ step s = .next (s.raise (.unknownOpCode (Memory.read s.mem s.ip)))) := by
  by_cases hr : s.status = .running
  · by_cases h : s.ip < s.len
    · rcases decodeOp_cases (Memory.read s.mem s.ip) with ⟨k, hk, _⟩ | ⟨hh, _⟩ | ⟨h1, h2, h3, hu⟩
      · exact .inr (.inr (.inl ⟨hr, h, k, hk, step_arith s k hr h hk⟩))
      · exact .inr (.inr (.inr (.inl ⟨hr, h, hh, step_hlt s hr h hh⟩)))
      · exact .inr (.inr (.inr (.inr ⟨hr, h, h1, h2, h3, step_unknown s hr h hu⟩)))
    · exact .inr (.inl ⟨hr, by omega, step_endOfMemory s hr (by omega)⟩)
  · exact .inl ⟨hr, step_terminal s hr⟩

end Sys2Proof.Machine
end

