-- ==== Sys2Proof/Laws/Cases.lean ====
section
/-! SUPPORT. The inversion lemmas of the shared procedure and of the step, in the words of Safety.lean: integers for
opcode values, `Valid` for addresses, `Stored` for a completed write. -/

namespace Sys2Proof.Machine

/-! An opcode cell and the integer it holds (R10, R40). -/

theorem word_eq_one (v : Word) : v = 1 ↔ v.toInt = 1 :=
  ⟨fun h => by rw [h]; decide, fun h => BitVec.eq_of_toInt_eq (h.trans (by decide))⟩
theorem word_eq_two (v : Word) : v = 2 ↔ v.toInt = 2 :=
  ⟨fun h => by rw [h]; decide, fun h => BitVec.eq_of_toInt_eq (h.trans (by decide))⟩
theorem word_eq_ninetyNine (v : Word) : v = 99 ↔ v.toInt = 99 :=
  ⟨fun h => by rw [h]; decide, fun h => BitVec.eq_of_toInt_eq (h.trans (by decide))⟩

theorem read_eq_opcode (s : State) (k : ArithOp) :
    Memory.read s.mem s.ip = k.opcode ↔ s.opcodeAt = arithValue k := by
  cases k
  · exact word_eq_one _
  · exact word_eq_two _

theorem arithValue_one_or_two (k : ArithOp) : arithValue k = 1 ∨ arithValue k = 2 := by cases k <;> decide

theorem arithValue_inj (j k : ArithOp) (h : arithValue j = arithValue k) : j = k := by
  cases j <;> cases k <;> first | rfl | exact absurd h (by decide)

theorem operandsValid_iff_valid (s : State) (src1 src2 dest : Word) :
    s.operandsValid src1 src2 dest = true ↔ s.Valid src1 ∧ s.Valid src2 ∧ s.Valid dest := operandsValid_iff s _ _ _

/-- A completed write and advance is what `Stored` says (R64, R68). -/
theorem stored_advance (s : State) (dest r : Word) (hd : s.Valid dest) :
    Stored s (s.writeOperand dest r).advance dest r.toInt := by
  refine ⟨congrArg BitVec.toInt (read_write_same _ _ _), fun a ha => read_write_other _ _ _ _ ?_, rfl, rfl, rfl, rfl,
    rfl⟩
  have := hd.1
  simp only [cellIndex]
  omega

/-- What the ALU makes of the cells two operands name. -/
def exactOf (s : State) (k : ArithOp) (src1 src2 : Word) : Int :=
  exactResult k (s.readOperand src1).toInt (s.readOperand src2).toInt

theorem exactOf_cells (s : State) (k : ArithOp) : exactOf s k (s.operandCell 1) (s.operandCell 2) = s.exactAt k := by
  cases k <;> rfl

/-- Everything the shared procedure can do, with the integers it computes (R63, R64, R80). -/
theorem execArith_effects (mode : OverflowMode) (k : ArithOp) (src1 src2 dest : Word) (s : State) :
    (s.len ≤ s.ip + 3 ∧ execArith mode k src1 src2 dest s = s.raise (.notEnoughParams k)) ∨
    (s.ip + 3 < s.len ∧ ¬ (s.Valid src1 ∧ s.Valid src2 ∧ s.Valid dest) ∧
      execArith mode k src1 src2 dest s = s.raise .segFault) ∨
    (s.ip + 3 < s.len ∧ (s.Valid src1 ∧ s.Valid src2 ∧ s.Valid dest) ∧
      ((¬ InInt64 (exactOf s k src1 src2) ∧ mode = .fault ∧
          execArith mode k src1 src2 dest s = s.raise (.arithOverflow k)) ∨
        ∃ r, alu mode k (s.readOperand src1) (s.readOperand src2) = some r ∧
          execArith mode k src1 src2 dest s = (s.writeOperand dest r).advance ∧
          ((InInt64 (exactOf s k src1 src2) ∧ r.toInt = exactOf s k src1 src2) ∨
            (¬ InInt64 (exactOf s k src1 src2) ∧ mode = .wrap ∧ r.toInt = wrap64 (exactOf s k src1 src2))))) := by
  have hfit : ∀ x, fitsInt64 x = true ↔ InInt64 x := fitsInt64_iff
  rcases execArith_cases mode k src1 src2 dest s with ⟨p, q⟩ | ⟨p, v, q⟩ | ⟨p, v, n, q⟩ | ⟨p, v, r, n, q⟩
  · exact .inl ⟨by omega, q⟩
  · exact .inr (.inl ⟨p, by rw [← operandsValid_iff_valid, v]; exact Bool.false_ne_true, q⟩)
  · obtain ⟨hm, hf⟩ := alu_eq_none _ _ _ _ n
    refine .inr (.inr ⟨p, (operandsValid_iff_valid _ _ _ _).1 v, .inl ⟨?_, hm, q⟩⟩)
    rw [← hfit, exactOf, hf]
    exact Bool.false_ne_true
  · refine .inr (.inr ⟨p, (operandsValid_iff_valid _ _ _ _).1 v, .inr ⟨r, n, q, ?_⟩⟩)
    rcases alu_cases mode k (s.readOperand src1) (s.readOperand src2) with ⟨f, x, hx, hi⟩ | ⟨f, hm, x, hx, hi⟩ |
      ⟨_, _, hx⟩
    · cases hx.symm.trans n
      exact .inl ⟨(hfit _).1 f, hi⟩
    · cases hx.symm.trans n
      refine .inr ⟨?_, hm, hi⟩
      rw [← hfit, exactOf, f]
      exact Bool.false_ne_true
    · exact absurd (hx.symm.trans n) (by simp)

/-- Everything a step that answers a next state has done (R52, R53, R80). -/
theorem step_next_cases (s t : State) (h : step s = .next t) : s.status = .running ∧
    ((s.len ≤ s.ip ∧ t = s.endRun .endOfMemory) ∨
    (s.ip < s.len ∧ s.opcodeAt = 99 ∧ t = s.endRun .halted) ∨
    (s.ip < s.len ∧ s.opcodeAt ≠ 1 ∧ s.opcodeAt ≠ 2 ∧ s.opcodeAt ≠ 99 ∧
      t = s.raise (.unknownOpCode (Memory.read s.mem s.ip))) ∨
    (s.ip < s.len ∧ ∃ k, s.opcodeAt = arithValue k ∧ t = execArith Config.overflowMode k (s.operandCell 1)
      (s.operandCell 2) (s.operandCell 3) s)) := by
  rcases step_cases s with ⟨a, e⟩ | ⟨a, b, e⟩ | ⟨a, b, k, c, e⟩ | ⟨a, b, c, e⟩ | ⟨a, b, c, d, f, e⟩ <;> rw [e] at h <;>
    cases h
  · exact ⟨a, .inl ⟨b, rfl⟩⟩
  · exact ⟨a, .inr (.inr (.inr ⟨b, k, (read_eq_opcode s k).1 c, rfl⟩))⟩
  · exact ⟨a, .inr (.inl ⟨b, (word_eq_ninetyNine _).1 c, rfl⟩)⟩
  · exact ⟨a, .inr (.inr (.inl ⟨b, fun x => c ((word_eq_one _).2 x), fun x => d ((word_eq_two _).2 x),
      fun x => f ((word_eq_ninetyNine _).2 x), rfl⟩))⟩

/-- A step at an Add or Multiply after which the run goes on has completed it (R60, R64): its operand cells exist, its
addresses are valid, and it has stored the result, which in either mode is the exact result wrapped (R63). -/
theorem step_arith_completed (s t : State) (k : ArithOp) (ho : s.opcodeAt = arithValue k) (h : step s = .next t)
    (hr : t.status = .running) (hl : s.ip < s.len) :
    s.ip + 3 < s.len ∧ s.AddressesValid ∧
      ∃ r : Word, t = (s.writeOperand (s.operandCell 3) r).advance ∧ r.toInt = wrap64 (s.exactAt k) ∧
        (InInt64 (s.exactAt k) → r.toInt = s.exactAt k) := by
  have hk := arithValue_one_or_two k
  obtain ⟨_, ⟨a, _⟩ | ⟨_, a, _⟩ | ⟨_, a, b, _⟩ | ⟨_, j, a, e⟩⟩ := step_next_cases s t h
  · omega
  · omega
  · omega
  · obtain rfl := arithValue_inj j k (a.symm.trans ho)
    rw [← exactOf_cells]
    rcases execArith_effects Config.overflowMode j (s.operandCell 1) (s.operandCell 2) (s.operandCell 3) s with
      ⟨_, q⟩ | ⟨_, _, q⟩ | ⟨p, v, ⟨_, _, q⟩ | ⟨r, _, q, ⟨f, g⟩ | ⟨f, _, g⟩⟩⟩
    · rw [e, q] at hr
      cases hr
    · rw [e, q] at hr
      cases hr
    · rw [e, q] at hr
      cases hr
    · exact ⟨p, v, r, e.trans q, g.trans (wrap64_of_fits _ ((fitsInt64_iff _).2 f)).symm, fun _ => g⟩
    · exact ⟨p, v, r, e.trans q, g, fun f' => absurd f' f⟩

end Sys2Proof.Machine
end

