-- ==== Sys2Proof/Laws/PerInstr.lean ====
section
/-! SUPPORT. Facts about every instruction as syntax, one lemma per constructor. -/

namespace Sys2Proof.Laws.OpcodeAndLength

/-- The operation an instruction's opcode cell names (R41). -/
def opOf : Instr → Op
  | .add _ _ _ => .arith .add
  | .mul _ _ _ => .arith .mul
  | .hlt => .halt

/-- The length the opcode alone fixes, in cells (R46). -/
def lengthOf : Op → Nat
  | .arith _ => 4
  | .halt => 1
  | .unknown _ => 0

/-- The first cell of an instruction's encoding decodes to its operation, and the encoding has as many cells as that
operation fixes (R39, R41, R46). -/
def Statement (i : Instr) : Prop :=
  (encode i).head?.map decodeOp = some (opOf i) ∧ (encode i).length = lengthOf (opOf i)

theorem add (src1 src2 dest : Word) : Statement (.add src1 src2 dest) := ⟨congrArg some decodeOp_one, rfl⟩
theorem mul (src1 src2 dest : Word) : Statement (.mul src1 src2 dest) := ⟨congrArg some decodeOp_two, rfl⟩
theorem hlt : Statement .hlt := ⟨congrArg some decodeOp_ninetyNine, rfl⟩

end Sys2Proof.Laws.OpcodeAndLength
end

