-- ==== Sys2Proof/Laws/Run.lean ====
section
/-! SUPPORT. The start transition, the loop of a run, and the induction over the states of a run. -/

namespace Sys2Proof.Machine

theorem maxLen_lt : Config.maxLen < 9223372036854775808 := Config.maxLenBounded.isLt

theorem imageWellFormed_iff (image : List Word) : imageWellFormed image = true ↔ image.length ≤ Config.maxLen := by
  simp [imageWellFormed]

theorem startState_eq (image : List Word) : startState image =
    { mem := Memory.ofCells 0 image, len := image.length, ip := 0,
      status := if image.length = 0 then .errProgramTooShort else .running, errOp := .none, errVal := 0 } := by
  by_cases h : image.length = 0 <;> simp [startState, h]

/-- The reset with nothing loaded is the start of the empty image (R87, log entry 2). -/
theorem startState_nil : startState [] = State.reset := rfl

theorem runLoop_terminal (n : Nat) (s : State) (h : s.status ≠ .running) : runLoop n s = s := by
  cases n with
  | zero => rfl
  | succ n => rw [runLoop, if_neg h]

theorem runLoop_next (n : Nat) (s t : State) (h : s.status = .running) (hs : step s = .next t) :
    runLoop (n + 1) s = runLoop n t := by rw [runLoop, if_pos h, hs]

/-! The host's run of a machine, one step at a time. -/

theorem hostRun_next (M : Host.Core) (n : Nat) (s t : M.State) (h : M.step s = .next t) :
    M.run (n + 1) s = M.run n t := by rw [Host.Core.run, h]

theorem hostRun_fault (M : Host.Core) (n : Nat) (s : M.State) (r : M.Fault) (h : M.step s = .fault r) :
    M.run (n + 1) s = .fault r := by rw [Host.Core.run, h]

theorem coreRun_zero (s : State) : Host.Core.run core 0 s = .next s := rfl

theorem coreRun_next (n : Nat) (s t : State) (h : step s = .next t) :
    Host.Core.run core (n + 1) s = Host.Core.run core n t := hostRun_next core n s t h

theorem coreRun_terminal (n : Nat) (s : State) (h : s.status ≠ .running) :
    Host.Core.run core (n + 1) s = .fault .noEnabledStep := hostRun_fault core n s _ (step_terminal s h)

/-- What holds of every start and is kept by every step holds of every state of every run. -/
theorem reachable_induction (P : State → Prop) (h0 : ∀ image, P (startState image))
    (hstep : ∀ s t, P s → step s = .next t → P t) (s : State) (h : Reachable s) : P s := by
  induction h with
  | start image => exact h0 image
  | step s t _ hs ih => exact hstep s t ih hs

end Sys2Proof.Machine
end

