-- ==== Sys2Proof/Tests/Slice0.lean ====
section
/-! SUPPORT. The model's own tests, each with the spec's vector or encoding it is taken from, and for every statement
with hypotheses a witness that meets them. -/

namespace Sys2Proof.Tests

open Sys2Proof Sys2Proof.Machine

/-- INT64_MAX and INT64_MIN as cells. -/
abbrev cMax : Word := 9223372036854775807
abbrev cMin : Word := 9223372036854775808

/-- Whether the step of a state answers a next state, and that state. -/
def stepsOn (s : State) : Bool := match step s with
  | .next _ => true
  | _ => false
def after (s : State) : State := match step s with
  | .next t => t
  | _ => s

theorem step_after (s : State) (h : stepsOn s = true) : step s = .next (after s) := by
  unfold stepsOn at h
  unfold after
  cases hs : step s with
  | next t => rfl
  | fault r => rw [hs] at h; cases h
  | refused r => rw [hs] at h; cases h

/-! ### Well-formedness: an ill-formed term for each check -/

/-- R48: no operand value of format A is ill formed. -/
theorem test_no_operand_is_ill_formed : (Instr.add cMin cMax 0).wellFormed = true := by decide

/-- R51, D10: an image of 2^63 cells is longer than any MAX_LEN. -/
theorem test_image_too_long_is_refused : imageWellFormed (List.replicate 9223372036854775808 0) = false := by
  rw [Bool.eq_false_iff, Ne, imageWellFormed_iff, List.length_replicate]
  exact Nat.not_le.2 maxLen_lt

theorem test_unsorted_memory_is_not_canonical : ¬ Memory.wf [(2, 1), (1, 1)] := by decide
theorem test_repeated_cell_is_not_canonical : ¬ Memory.wf [(1, 1), (1, 2)] := by decide
theorem test_listed_zero_is_not_canonical : ¬ Memory.wf [(1, 0)] := by decide

/-! ### Decoding: words written out from the encodings of spec/30_encoding.md -/

/-- R43: opcode cell 1, then src1 9, src2 10, dest 3: the first instruction of vector S7. -/
theorem test_decode_add : decode [0x1, 0x9, 0xA, 0x3, 0x2] = .instr (.add 9 10 3) [2] := by decide
/-- R43: opcode cell 2, then src1 3, src2 11, dest 0: the second instruction of vector S7. -/
theorem test_decode_mul : decode [0x2, 0x3, 0xB, 0x0] = .instr (.mul 3 11 0) [] := by decide
/-- R44: opcode cell 99 = 0x63, one cell. -/
theorem test_decode_hlt : decode [0x63, 0x1E] = .instr .hlt [30] := by decide
/-- R43 and the table's numbering of bits: src1 is bits 127..64, src2 bits 191..128, dest bits 255..192. -/
theorem test_decode_table_word :
    decodeTableWord 256 (1 + 5 * 2 ^ 64 + 6 * 2 ^ 128 + 4 * 2 ^ 192) = some (.add 5 6 4) := by decide
/-- R45, V10: a negative operand is the whole signed cell. -/
theorem test_decode_negative_operand :
    decode [0x2, 0xFFFFFFFFFFFFFFFF, 0x0, 0x8000000000000000] = .instr (.mul (-1) 0 cMin) [] := by decide
/-- V7, D18: 1001 is no Add with a parameter mode. -/
theorem test_decode_no_parameter_modes : decode [1001, 0, 0, 0] = .unknownOpCode 1001 := by decide
/-- V5, V6: the neighbours of 99. -/
theorem test_decode_neighbours : decode [98] = .unknownOpCode 98 ∧ decode [100] = .unknownOpCode 100 := by decide
/-- R70, vector S5. -/
theorem test_decode_short : decode [2, 1, 1] = .notEnoughParams .mul := by decide

/-! ### Instructions: the vectors of spec/95_test_vectors.md -/

/-- A9: ADD of -5 and 104 writes 99 into the next opcode cell. -/
theorem test_add_negative_into_next_opcode :
    let t := after (startState [1, 5, 6, 4, 1, -5, 104])
    Memory.read t.mem 4 = 99 ∧ t.ip = 4 ∧ t.status = .running := by decide
/-- A3, A3w: MAX + 1 under each mode, the default first. -/
theorem test_add_overflow :
    let s := startState [1, 5, 6, 0, 99, cMax, 1]
    execArith Config.defaultOverflowMode .add 5 6 0 s = { s with status := .errArithOverflow, errOp := .add } ∧
    Memory.read (execArith .wrap .add 5 6 0 s).mem 0 = cMin := by decide
/-- M9: -2^31 × 2^32 = MIN exactly, in range. -/
theorem test_mul_reaches_min :
    Memory.read (after (startState [2, 5, 6, 0, 99, -2147483648, 4294967296])).mem 0 = cMin := by decide
/-- M8, M8w: 3037000500^2 is just above MAX. -/
theorem test_mul_overflow :
    let s := startState [2, 5, 6, 0, 99, 3037000500, 3037000500]
    (execArith Config.defaultOverflowMode .mul 5 6 0 s).status = .errArithOverflow ∧
    (Memory.read (execArith .wrap .mul 5 6 0 s).mem 0).toInt = -9223372036709301616 := by decide
/-- V1: a Halt in the only cell. -/
theorem test_hlt_in_the_last_cell :
    after (startState [99]) = { startState [99] with status := .halted } := by decide
/-- V11: the result keeps the cells after the Halt. -/
theorem test_hlt_result : (after (startState [99, 5, -7])).result = some (.ok [99, 5, -7]) := by decide

/-! ### Errors and the end of memory -/

/-- S1: the empty image. -/
theorem test_empty_image : (startState []).result = some (.err .programTooShort) := by decide
/-- S3: a destination equal to `len`. -/
theorem test_segfault : (after (startState [1, 0, 0, 5, 99])).result = some (.err .segFault) := by decide
/-- F7: a bad destination is reported although the sum would overflow. -/
theorem test_segfault_before_overflow : (after (startState [1, 5, 5, 9, 99, cMax])).status = .errSegFault := by decide
/-- N6: NotEnoughParams before the would-be SegFault. -/
theorem test_not_enough_params_first :
    (after (startState [1, -1, -1])).result = some (.err (.notEnoughParams .add)) := by decide
/-- V10: the full-width payload. -/
theorem test_unknown_opcode : (after (startState [cMin])).result = some (.err (.unknownOpCode cMin)) := by decide
/-- S6: the end of memory, from the state after the one ADD. -/
theorem test_end_of_memory : (after (after (startState [1, 0, 0, 0]))).result = some (.ok [2, 0, 0, 0]) := by decide

/-! ### The placing of one instruction for the host -/

theorem test_placed_add : (after (State.reset.withFetchWord 64 1)).mem = [(0, 2)] := by decide
theorem test_placed_mul : (after (State.reset.withFetchWord 64 2)).mem = [(0, 4)] := by decide
theorem test_placed_hlt : (after (State.reset.withFetchWord 64 99)).status = .halted := by decide

/-! ### Witnesses: for each statement with hypotheses, values that meet them all -/

theorem witness_StepRunsTheDecodedInstruction :
    (startState [1, 0, 0, 0]).status = .running ∧
    decode (startState [1, 0, 0, 0]).fetchCells = .instr (.add 0 0 0) [] := by decide

/-- The last of the four cells, at the end of the array. -/
theorem witness_FetchReadsTheCellsAtIp :
    3 < 4 ∧ (startState [1, 0, 0, 0]).ip + 3 < (startState [1, 0, 0, 0]).len := by decide

theorem witness_StepDispatchesOnTheOpcodeCell :
    let s1 := startState [1, 0, 0, 0]
    let s2 := startState [2, 0, 0, 0]
    let s3 := startState [99]
    (s1.status = .running ∧ s1.ip + 3 < s1.len ∧ s1.opcodeAt = 1) ∧
    (s2.status = .running ∧ s2.ip + 3 < s2.len ∧ s2.opcodeAt = 2) ∧
    (s3.status = .running ∧ s3.ip < s3.len ∧ s3.opcodeAt = 99) := by decide

/-- The state of E1 and S6 when `ip` has reached `len`, a state of a run. -/
theorem witness_EndOfMemoryIsSuccess :
    (after (startState [1, 0, 0, 0])).status = .running ∧
    (after (startState [1, 0, 0, 0])).len ≤ (after (startState [1, 0, 0, 0])).ip ∧
    Reachable (after (startState [1, 0, 0, 0])) :=
  ⟨by decide, by decide, .step _ _ (.start _) (step_after _ (by decide))⟩

/-- V2, V5, V6 and V10: below the three opcodes, the neighbours of 99, and INT64_MIN. -/
theorem witness_UnknownOpcodeEndsTheRun : ∀ v ∈ [(0 : Word), 98, 100, cMin],
    (startState [v]).status = .running ∧ (startState [v]).ip < (startState [v]).len ∧
    (startState [v]).opcodeAt ≠ 1 ∧ (startState [v]).opcodeAt ≠ 2 ∧ (startState [v]).opcodeAt ≠ 99 := by
  simp only [List.forall_mem_cons]
  exact ⟨by decide, by decide, by decide, by decide, fun _ h => absurd h List.not_mem_nil⟩

theorem witness_TerminalStatesNeverChange : State.reset.status ≠ .running := by decide

/-- A step into each status but the one that hangs on the overflow mode, each at a boundary of its cause. -/
theorem witness_EachStatusHasItsExactCause :
    (∃ s t, step s = .next t ∧ t.status = .endOfMemory) ∧
    (∃ s t, step s = .next t ∧ t.status = .errUnknownOpCode) ∧
    (∃ s t, step s = .next t ∧ t.status = .halted) ∧
    (∃ s t, step s = .next t ∧ t.status = .errNotEnoughParams) ∧
    (∃ s t, step s = .next t ∧ t.status = .errSegFault) ∧
    (∃ s t, step s = .next t ∧ t.status = .running) :=
  ⟨⟨after (startState [1, 0, 0, 0]), _, step_after _ (by decide), by decide⟩,
    ⟨startState [100], _, step_after _ (by decide), by decide⟩,
    ⟨startState [99], _, step_after _ (by decide), by decide⟩,
    ⟨startState [1, 0, 0], _, step_after _ (by decide), by decide⟩,
    ⟨startState [1, 0, 0, 5, 99], _, step_after _ (by decide), by decide⟩,
    ⟨startState [1, 0, 0, 0], _, step_after _ (by decide), by decide⟩⟩

/-- MAX - 1 + 1 is the greatest sum that fits, MAX + 1 the least that does not. -/
theorem witness_AluIsExactOrFollowsTheMode :
    InInt64 ((cMax - 1).toInt + (1 : Word).toInt) ∧ ¬ InInt64 (cMax.toInt + (1 : Word).toInt) ∧
    InInt64 (cMin.toInt * (1 : Word).toInt) ∧ ¬ InInt64 (cMin.toInt * (-1 : Word).toInt) := by decide

theorem witness_AluSignAndZeroLaws : 0 ≤ cMax.toInt ∧ cMin.toInt ≤ 0 ∧ 0 ≤ (0 : Word).toInt := by decide

/-- F6: the destination is the last cell. -/
theorem witness_AddStoresTheSum :
    let s := startState [1, 0, 0, 5, 99, cMax]
    s.ip + 3 < s.len ∧ s.Valid 0 ∧ s.Valid 0 ∧ s.Valid 5 ∧
    InInt64 ((Memory.read s.mem 0).toInt + (Memory.read s.mem 0).toInt) := by decide

/-- M10: all three operands are cell 0, and the operand cells end at the end of the array. -/
theorem witness_MulStoresTheProduct :
    let s := startState [2, 0, 0, 0]
    s.ip + 3 < s.len ∧ s.Valid 0 ∧ s.Valid 0 ∧ s.Valid 0 ∧
    InInt64 ((Memory.read s.mem 0).toInt * (Memory.read s.mem 0).toInt) := by decide

/-- F8: valid addresses, the destination the last cell, and MAX + MAX; for both ADD statements and the shared one. -/
theorem witness_AddOverflowFollowsTheMode :
    let s := startState [1, 5, 5, 6, 99, cMax, 0]
    s.ip + 3 < s.len ∧ s.Valid 5 ∧ s.Valid 5 ∧ s.Valid 6 ∧
    ¬ InInt64 ((Memory.read s.mem 5).toInt + (Memory.read s.mem 5).toInt) := by decide

/-- M4: -1 × MIN. -/
theorem witness_MulOverflowFollowsTheMode :
    let s := startState [2, 5, 6, 0, 99, -1, cMin]
    s.ip + 3 < s.len ∧ s.Valid 5 ∧ s.Valid 6 ∧ s.Valid 0 ∧
    ¬ InInt64 ((Memory.read s.mem 5).toInt * (Memory.read s.mem 6).toInt) := by decide

/-- The two operations of the shared procedure. -/
theorem witness_OverflowInEitherMode :
    (let s := startState [1, 5, 5, 6, 99, cMax, 0]
     s.ip + 3 < s.len ∧ s.Valid 5 ∧ s.Valid 6 ∧ ¬ InInt64 ((Memory.read s.mem 5).toInt + (Memory.read s.mem 5).toInt)) ∧
    (let s := startState [2, 5, 6, 0, 99, -1, cMin]
     s.ip + 3 < s.len ∧ s.Valid 5 ∧ s.Valid 6 ∧ s.Valid 0 ∧
      ¬ InInt64 ((Memory.read s.mem 5).toInt * (Memory.read s.mem 6).toInt)) := by decide

/-- S3, F2 and F5: a destination equal to `len`, a negative source, all three bad. -/
theorem witness_BadAddressRaisesSegFault : ∀ image ∈ [[(1 : Word), 0, 0, 5, 99], [1, 0, -3, 0, 99], [2, -1, -1, 100, 99]],
    let s := startState image
    s.status = .running ∧ s.ip + 3 < s.len ∧ (s.opcodeAt = 1 ∨ s.opcodeAt = 2) ∧ ¬ s.AddressesValid := by
  unfold State.AddressesValid
  decide

/-- N1, N3 and N2: one, three and two cells left. -/
theorem witness_MissingOperandCellsRaiseNotEnoughParams :
    (∀ image ∈ [[(1 : Word)], [1, 0, 0]], let s := startState image
      s.status = .running ∧ s.ip < s.len ∧ s.len ≤ s.ip + 3 ∧ s.opcodeAt = 1) ∧
    (∀ image ∈ [[(2 : Word), 0], [2, 1, 1]], let s := startState image
      s.status = .running ∧ s.ip < s.len ∧ s.len ≤ s.ip + 3 ∧ s.opcodeAt = 2) := by decide

theorem witness_ArithmeticMeaningsTrapInOrder :
    (startState [1, 0, 0]).len ≤ (startState [1, 0, 0]).ip + 3 ∧
    (startState [1, 0, 0, 4]).ip + 3 < (startState [1, 0, 0, 4]).len ∧
    ¬ ((startState [1, 0, 0, 4]).Valid 0 ∧ (startState [1, 0, 0, 4]).Valid 0 ∧ (startState [1, 0, 0, 4]).Valid 4) := by
  decide

/-- One that completes and one that faults. -/
theorem witness_ArithmeticFrame :
    (∃ t, exec (.add 0 0 0) (startState [1, 0, 0, 0]) = .next t) ∧
    (∃ t, exec (.mul 0 0 4) (startState [2, 0, 0, 4]) = .next t) := ⟨⟨_, rfl⟩, ⟨_, rfl⟩⟩

/-- A7, whose destination is its own second operand cell, A8, whose destination is its own opcode cell, and M10. -/
theorem witness_StepComputesWithTheOldValues :
    (∀ image ∈ [[(1 : Word), 0, 0, 2, 99], [1, 0, 0, 0, 99]], let s := startState image
      s.status = .running ∧ s.ip + 3 < s.len ∧ s.AddressesValid ∧ s.opcodeAt = 1 ∧ InInt64 (s.exactAt .add)) ∧
    (let s := startState [2, 0, 0, 0]
     s.status = .running ∧ s.ip + 3 < s.len ∧ s.AddressesValid ∧ s.opcodeAt = 2 ∧ InInt64 (s.exactAt .mul)) := by
  unfold State.AddressesValid
  decide

theorem witness_HaltStopsTheRun :
    (startState [99]).status = .running ∧ (startState [99]).ip < (startState [99]).len ∧
    (startState [99]).opcodeAt = 99 := by decide

theorem witness_LenIsSetAtTheStartOnly : ∃ s t, step s = .next t :=
  ⟨startState [1, 0, 0, 0], _, step_after _ (by decide)⟩

/-- A step of each kind: one that moves `ip` and one that ends the run. -/
theorem witness_IpMovesOnlyByCompletedArithmetic :
    (∃ s t, step s = .next t ∧ t.ip = s.ip + 4) ∧ (∃ s t, step s = .next t ∧ t.ip = s.ip) :=
  ⟨⟨startState [1, 0, 0, 0], _, step_after _ (by decide), by decide⟩,
    ⟨startState [99], _, step_after _ (by decide), by decide⟩⟩

/-- A step into NotEnoughParams, one into UnknownOpCode, and one into neither. -/
theorem witness_PayloadRegistersRecordTheError :
    (∃ s t, step s = .next t ∧ t.status = .errNotEnoughParams) ∧
    (∃ s t, step s = .next t ∧ t.status = .errUnknownOpCode) ∧
    (∃ s t, step s = .next t ∧ t.status ≠ .errNotEnoughParams ∧ t.status ≠ .errArithOverflow ∧
      t.status ≠ .errUnknownOpCode) :=
  ⟨⟨startState [2], _, step_after _ (by decide), by decide⟩,
    ⟨startState [-1], _, step_after _ (by decide), by decide⟩,
    ⟨startState [99], _, step_after _ (by decide), by decide⟩⟩

/-- A state whose status gives neither payload register a meaning. -/
theorem witness_PayloadRegistersRecordTheError_result :
    State.reset.status ≠ .errNotEnoughParams ∧ State.reset.status ≠ .errArithOverflow ∧
    State.reset.status ≠ .errUnknownOpCode := by decide

theorem witness_TrapsArePrecise :
    (∃ s t, step s = .next t ∧ t.status = .errSegFault) ∧
    (∃ s t, step s = .next t ∧ t.status = .errUnknownOpCode) ∧
    (∃ s t, step s = .next t ∧ t.status = .errNotEnoughParams) :=
  ⟨⟨startState [1, 0, 0, -1, 99], _, step_after _ (by decide), by decide⟩,
    ⟨startState [3], _, step_after _ (by decide), by decide⟩,
    ⟨startState [1, -1, -1], _, step_after _ (by decide), by decide⟩⟩

/-- The cell just past the array, and a cell of it that is not the destination. -/
theorem witness_OnlyTheDestinationCellIsWritten :
    ∃ s t, step s = .next t ∧ s.len ≤ 4 ∧ ((1 : Nat) : Int) ≠ (s.operandCell 3).toInt :=
  ⟨startState [1, 0, 0, 0], _, step_after _ (by decide), by decide⟩

/-- Two machines that differ in a cell past the array only. -/
theorem witness_StepReadsNoCellOutsideTheArray :
    let s := startState [1, 0, 0, 0]
    let s' := { s with mem := [(0, 1), (4, 7)] }
    SameRegisters s s' ∧ (∀ a, a < s.len → Memory.read s.mem a = Memory.read s'.mem a) ∧
    Memory.read s.mem 4 ≠ Memory.read s'.mem 4 ∧ step s = .next (after s) :=
  ⟨by decide, by decide, by decide, step_after _ (by decide)⟩

/-- Two machines that differ in a cell after the opcode, at a Halt and at an Unknown opcode. -/
theorem witness_HaltAndUnknownReadOnlyTheOpcode : ∀ v ∈ [(99 : Word), 3],
    (startState [v, 1]).status = .running ∧ SameRegisters (startState [v, 1]) (startState [v, 2]) ∧
    (startState [v, 1]).ip < (startState [v, 1]).len ∧
    Memory.read (startState [v, 1]).mem (startState [v, 1]).ip =
      Memory.read (startState [v, 2]).mem (startState [v, 1]).ip ∧
    (startState [v, 1]).opcodeAt ≠ 1 ∧ (startState [v, 1]).opcodeAt ≠ 2 ∧
    step (startState [v, 1]) = .next (after (startState [v, 1])) := by
  simp only [List.forall_mem_cons]
  exact ⟨⟨by decide, by decide, by decide, by decide, by decide, by decide, step_after _ (by decide)⟩,
    ⟨by decide, by decide, by decide, by decide, by decide, by decide, step_after _ (by decide)⟩,
    fun _ h => absurd h List.not_mem_nil⟩

/-- One image for each clause: a 1 and a 2 written into an opcode cell with all operand cells behind it (the second by MUL;
S9 and E4 turn the cell into MUL by ADD), a 1 and a 2 with one missing, A9, whose 99 halts, and A9 with 109 for 104, whose
104 is no opcode. -/
theorem witness_NextOpcodeWrittenIsTheOneFetched :
    ∀ c ∈ [(ArithOp.add, [(1 : Word), 8, 9, 4, 0, 0, 0, 0, 1, 0], (1 : Int), true),
      (.mul, [2, 8, 9, 4, 0, 0, 0, 0, 2, 1], 2, true), (.add, [1, 1, 1, 4, 99, 5, 6, 0, 99], 2, true),
      (.add, [1, 0, 0, 4, 1, 0, 0, 0], 2, true), (.add, [1, 5, 6, 4, 99, 1, 0], 1, false),
      (.add, [1, 5, 6, 4, 99, 1, 1], 2, false), (.add, [1, 5, 6, 4, 1, -5, 104], 99, false),
      (.add, [1, 5, 6, 4, 1, -5, 109], 104, false)],
    (startState c.2.1).status = .running ∧ (startState c.2.1).opcodeAt = arithValue c.1 ∧
    (startState c.2.1).ip + 4 < (startState c.2.1).len ∧
    ((startState c.2.1).operandCell 3).toInt = ((startState c.2.1).ip : Int) + 4 ∧
    step (startState c.2.1) = .next (after (startState c.2.1)) ∧ (after (startState c.2.1)).status = .running ∧
    (after (startState c.2.1)).opcodeAt = c.2.2.1 ∧
    decide ((after (startState c.2.1)).ip + 3 < (after (startState c.2.1)).len) = c.2.2.2 := by
  simp only [List.forall_mem_cons]
  refine ⟨?_, ?_, ?_, ?_, ?_, ?_, ?_, ?_, fun _ h => absurd h List.not_mem_nil⟩ <;>
    exact ⟨by decide, by decide, by decide, by decide, step_after _ (by decide), by decide, by decide, by decide⟩

/-- Each operand cell of the next instruction, which is an Add (the third image is P5's) or a Multiply. -/
theorem witness_NextOperandsWrittenAreTheOnesUsed :
    ∀ c ∈ [([(1 : Word), 8, 9, 5, 1, 0, 0, 0, 2, 1], 1, (1 : Int)), ([1, 8, 9, 6, 2, 0, 0, 0, 2, 1], 2, 2),
      ([1, 9, 10, 7, 1, 0, 0, 0, 99, 5, 95], 3, 1)],
    (startState c.1).status = .running ∧ (startState c.1).opcodeAt = arithValue .add ∧
    (startState c.1).ip + 7 < (startState c.1).len ∧ 1 ≤ c.2.1 ∧ c.2.1 ≤ 3 ∧
    ((startState c.1).operandCell 3).toInt = ((startState c.1).ip : Int) + 4 + ((c.2.1 : Nat) : Int) ∧
    step (startState c.1) = .next (after (startState c.1)) ∧ (after (startState c.1)).status = .running ∧
    (after (startState c.1)).opcodeAt = c.2.2 := by
  simp only [List.forall_mem_cons]
  refine ⟨?_, ?_, ?_, fun _ h => absurd h List.not_mem_nil⟩ <;>
    exact ⟨by decide, by decide, by decide, by decide, by decide, by decide, step_after _ (by decide), by decide,
      by decide⟩

theorem witness_EqualContentsAreEqualMemories :
    Memory.wf [(0, 1), (4, 7)] ∧ Memory.wf (Memory.write (Memory.write [] 4 7) 0 1) ∧
    (∀ a, Memory.read [(0, 1), (4, 7)] a = Memory.read (Memory.write (Memory.write [] 4 7) 0 1) a) :=
  ⟨by decide, by decide, fun _ => rfl⟩

/-- The shortest image, and one longer than any MAX_LEN. -/
theorem witness_StartSetsEveryComponent :
    ([] : List Word).length ≤ Config.maxLen ∧
    Config.maxLen < (List.replicate 9223372036854775808 (0 : Word)).length :=
  ⟨Nat.zero_le _, by rw [List.length_replicate]; exact maxLen_lt⟩

/-- One state for each clause. -/
theorem witness_ResultOfEachStatus :
    (∀ st : Status, ({ State.reset with status := st } : State).status = st) ∧
    (∀ (st : Status) (o : ErrOp), ({ State.reset with status := st, errOp := o } : State).status = st ∧
      ({ State.reset with status := st, errOp := o } : State).errOp = o) := ⟨fun _ => rfl, fun _ _ => ⟨rfl, rfl⟩⟩

/-- The one completed step of S6. -/
theorem witness_EveryRunEndsWithinItsStepBound :
    Reachable (startState [1, 0, 0, 0]) ∧
    step (startState [1, 0, 0, 0]) = .next (after (startState [1, 0, 0, 0])) ∧
    (after (startState [1, 0, 0, 0])).status = .running := ⟨.start _, step_after _ (by decide), by decide⟩

/-- The empty image is the one image that every MAX_LEN admits: the spec gives MAX_LEN no lower bound. The first clause of
the statement has no hypothesis and covers every other image. -/
theorem witness_RunAnswersEveryImage : ([] : List Word).length ≤ Config.maxLen := Nat.zero_le _

/-- A running state, a terminal state of a non-empty image, and the start of the empty one. -/
theorem witness_CompletedStepsAreIpOverFour :
    (∃ t : State, Host.Core.run core 1 (startState [1, 0, 0, 0]) = .next t ∧ t.status = .running) ∧
    (∃ t : State, Host.Core.run core 1 (startState [99]) = .next t ∧ t.status ≠ .running ∧ [(99 : Word)] ≠ []) ∧
    (∃ t : State, Host.Core.run core 0 (startState []) = .next t) :=
  ⟨⟨_, (coreRun_next 0 _ _ (step_after _ (by decide))).trans (coreRun_zero _), by decide⟩,
    ⟨_, (coreRun_next 0 _ _ (step_after _ (by decide))).trans (coreRun_zero _), by decide, by decide⟩,
    ⟨_, coreRun_zero _⟩⟩

theorem witness_StepKeepsTheInvariant :
    (startState [1, 0, 0, 0]).Inv ∧ step (startState [1, 0, 0, 0]) = .next (after (startState [1, 0, 0, 0])) :=
  ⟨⟨by decide, by decide, by decide, by decide⟩, step_after _ (by decide)⟩

theorem witness_StepKeepsTheCauseTrue :
    (startState [1, 0, 0, 5]).Inv ∧ (startState [1, 0, 0, 5]).CauseHolds ∧
    step (startState [1, 0, 0, 5]) = .next (after (startState [1, 0, 0, 5])) :=
  ⟨⟨by decide, by decide, by decide, by decide⟩, ⟨by decide, by decide, by decide⟩, step_after _ (by decide)⟩

/-- A running state of a run, and its END_OF_MEMORY. -/
theorem witness_StatesOfARunKeepIpInside :
    (Reachable (startState [1, 0, 0, 0]) ∧ (startState [1, 0, 0, 0]).status = .running) ∧
    (Reachable (after (after (startState [1, 0, 0, 0]))) ∧
      (after (after (startState [1, 0, 0, 0]))).status = .endOfMemory) :=
  ⟨⟨.start _, by decide⟩,
    .step _ _ (.step _ _ (.start _) (step_after _ (by decide))) (step_after _ (by decide)), by decide⟩

end Sys2Proof.Tests
end

section
/-! The inversion of one step as a predicate with one constructor per effect, and what follows from it for each field. -/

namespace Sys2Proof.Machine

/-- What a step from `s` leaves, one constructor per way a step can go, each with its exact cause (R52, R80). That every
step is one of these is `stepEffect_of_next`. -/
inductive StepEffect (s : State) : State → Prop where
  | endOfMemory (hip : s.len ≤ s.ip) : StepEffect s (s.endRun .endOfMemory)
  | halted (hip : s.ip < s.len) (hop : s.opcodeAt = 99) : StepEffect s (s.endRun .halted)
  | unknownOpCode (hip : s.ip < s.len) (h1 : s.opcodeAt ≠ 1) (h2 : s.opcodeAt ≠ 2) (h99 : s.opcodeAt ≠ 99) :
      StepEffect s (s.raise (.unknownOpCode (Memory.read s.mem s.ip)))
  | notEnoughParams (k : ArithOp) (hop : s.opcodeAt = arithValue k) (hip : s.ip < s.len) (hlen : s.len ≤ s.ip + 3) :
      StepEffect s (s.raise (.notEnoughParams k))
  | segFault (k : ArithOp) (hop : s.opcodeAt = arithValue k) (hlen : s.ip + 3 < s.len) (hbad : ¬ s.AddressesValid) :
      StepEffect s (s.raise .segFault)
  | arithOverflow (k : ArithOp) (hop : s.opcodeAt = arithValue k) (hlen : s.ip + 3 < s.len) (hvalid : s.AddressesValid)
      (hmode : Config.overflowMode = .fault) (hout : ¬ InInt64 (s.exactAt k)) :
      StepEffect s (s.raise (.arithOverflow k))
  | completed (k : ArithOp) (r : Word) (hop : s.opcodeAt = arithValue k) (hlen : s.ip + 3 < s.len)
      (hvalid : s.AddressesValid)
      (hres : (InInt64 (s.exactAt k) ∧ r.toInt = s.exactAt k) ∨
        (¬ InInt64 (s.exactAt k) ∧ Config.overflowMode = .wrap ∧ r.toInt = wrap64 (s.exactAt k))) :
      StepEffect s (s.writeOperand (s.operandCell 3) r).advance

theorem stepEffect_of_next {s t : State} (h : step s = .next t) : s.status = .running ∧ StepEffect s t := by
  obtain ⟨hr, ⟨hip, rfl⟩ | ⟨hip, hop, rfl⟩ | ⟨hip, h1, h2, h99, rfl⟩ | ⟨hip, k, hop, rfl⟩⟩ := step_next_cases s t h
  · exact ⟨hr, .endOfMemory hip⟩
  · exact ⟨hr, .halted hip hop⟩
  · exact ⟨hr, .unknownOpCode hip h1 h2 h99⟩
  · refine ⟨hr, ?_⟩
    have hcases := execArith_effects Config.overflowMode k (s.operandCell 1) (s.operandCell 2) (s.operandCell 3) s
    rw [exactOf_cells] at hcases
    obtain ⟨hlen, he⟩ | ⟨hlen, hbad, he⟩ | ⟨hlen, hvalid, ⟨hout, hmode, he⟩ | ⟨r, _, he, hres⟩⟩ := hcases <;> rw [he]
    · exact .notEnoughParams k hop hip hlen
    · exact .segFault k hop hlen hbad
    · exact .arithOverflow k hop hlen hvalid hmode hout
    · exact .completed k r hop hlen hvalid hres

theorem one_or_two_of_opcode {s : State} {k : ArithOp} (hop : s.opcodeAt = arithValue k) :
    s.opcodeAt = 1 ∨ s.opcodeAt = 2 := hop ▸ arithValue_one_or_two k

/-- The two kinds of step: a completed ADD or MUL, or the end of the run, which leaves `mem`, `len` and `ip` (R16, R81). -/
theorem StepEffect.completed_or_ended {s t : State} (h : StepEffect s t) :
    (∃ k r, s.opcodeAt = arithValue k ∧ s.ip + 3 < s.len ∧ s.AddressesValid ∧
      t = (s.writeOperand (s.operandCell 3) r).advance) ∨
    (t.status ≠ .running ∧ t.mem = s.mem ∧ t.len = s.len ∧ t.ip = s.ip) := by
  cases h with
  | completed k r hop hlen hvalid _ => exact .inl ⟨k, r, hop, hlen, hvalid, rfl⟩
  | _ => exact .inr ⟨by simp, rfl, rfl, rfl⟩

/-! ### The invariant -/

/-- `Inv` speaks of `mem`, `len` and `ip` only. -/
theorem State.Inv.congr {s t : State} (h : s.Inv) (hm : t.mem = s.mem) (hl : t.len = s.len) (hi : t.ip = s.ip) :
    t.Inv := by
  obtain ⟨hwf, hin, hal, hle⟩ := h
  constructor <;> simpa only [hm, hl, hi]

/-- A completed ADD or MUL keeps the invariant: it writes inside the array, and four cells from an aligned `ip` fit. -/
theorem State.Inv.writeOperand_advance {s : State} (h : s.Inv) (dest r : Word) (hlen : s.ip + 3 < s.len)
    (hd : s.Valid dest) : (s.writeOperand dest r).advance.Inv where
  memCanonical := write_wf _ _ _ h.memCanonical
  memInside e he := by
    rcases mem_write _ _ _ _ he with rfl | he
    · exact cellIndex_lt s dest ((valid_iff s dest).2 hd)
    · exact h.memInside e he
  ipAligned := by
    have := h.ipAligned
    simp only [State.advance_ip, State.writeOperand_ip]
    omega
  ipInside := by
    simp only [State.advance_ip, State.writeOperand_ip, State.advance_len, State.writeOperand_len]
    omega

theorem startState_inv (image : List Word) : (startState image).Inv := by
  rw [startState_eq]
  exact ⟨ofCells_wf 0 image, fun e he => by simpa using (mem_ofCells 0 image e he).2.1, rfl, Nat.zero_le _⟩

/-- Settles O43: a step stores and moves on by 4, or leaves all that the invariant speaks of. -/
theorem stepKeepsTheInvariant : Obligations.StepKeepsTheInvariant := by
  intro s t hs h
  obtain ⟨k, r, _, hlen, ⟨_, _, hd⟩, rfl⟩ | ⟨_, hm, hl, hi⟩ := (stepEffect_of_next h).2.completed_or_ended
  · exact hs.writeOperand_advance _ _ hlen hd
  · exact hs.congr hm hl hi

/-- Settles O44: the reset state is the start of the empty image, and every start lists the cells of its image in order. -/
theorem startMeetsTheInvariant : Obligations.StartMeetsTheInvariant :=
  ⟨startState_nil ▸ startState_inv [], startState_inv⟩

/-! ### The cause of a status -/

theorem causeHolds_of_running {s : State} (h : s.status = .running) :
    s.CauseHolds ↔ s.errOp = .none ∧ s.errVal = 0 ∧ 0 < s.len := by
  rw [State.CauseHolds, h]

/-- What a step leaves states its cause truthfully: each constructor of `StepEffect` carries the facts that the status it
ends in stands for. -/
theorem StepEffect.causeHolds {s t : State} (h : StepEffect s t) (hr : s.status = .running) (hip : s.ip ≤ s.len)
    (hc : s.CauseHolds) : t.CauseHolds := by
  obtain ⟨hop0, hval0, hpos⟩ := (causeHolds_of_running hr).1 hc
  cases h with
  | endOfMemory hle => exact ⟨hop0, hval0, le_antisymm hip hle, hpos⟩
  | halted hlt hop => exact ⟨hop0, hval0, hlt, hop⟩
  | unknownOpCode hlt h1 h2 h99 => exact ⟨hop0, hlt, rfl, h1, h2, h99⟩
  | notEnoughParams k hop hlt hlen => exact ⟨hval0, hlt, hlen, k, rfl, hop⟩
  | segFault k hop hlen hbad => exact ⟨hop0, hval0, hlen, one_or_two_of_opcode hop, hbad⟩
  | arithOverflow k hop hlen hvalid hmode hout => exact ⟨hmode, hval0, hlen, hvalid, k, rfl, hop, hout⟩
  | completed k r _ _ _ _ => exact (causeHolds_of_running (by simpa using hr)).2 ⟨hop0, hval0, hpos⟩

theorem startState_causeHolds (image : List Word) : (startState image).CauseHolds := by
  rw [startState_eq]
  by_cases h : image.length = 0
  · rw [if_pos h]
    exact ⟨rfl, rfl, h, rfl⟩
  · rw [if_neg h]
    exact ⟨rfl, rfl, Nat.pos_of_ne_zero h⟩

/-- Settles O45: the invariant gives `ip ≤ len`, which the end of memory needs for `ip = len`. -/
theorem stepKeepsTheCauseTrue : Obligations.StepKeepsTheCauseTrue := by
  intro s t hs hc h
  obtain ⟨hr, he⟩ := stepEffect_of_next h
  exact he.causeHolds hr hs.ipInside hc

/-! ### The states of a run -/

theorem inv_and_causeHolds_of_reachable {s : State} (h : Reachable s) : s.Inv ∧ s.CauseHolds :=
  reachable_induction (fun s => s.Inv ∧ s.CauseHolds) (fun image => ⟨startState_inv image, startState_causeHolds image⟩)
    (fun s t ⟨hi, hc⟩ h => ⟨stepKeepsTheInvariant s t hi h, stepKeepsTheCauseTrue s t hi hc h⟩) s h

/-- Settles O47: the invariant bounds `ip`, and the cause of END_OF_MEMORY says that `ip = len`. -/
theorem statesOfARunKeepIpInside : Obligations.StatesOfARunKeepIpInside := by
  intro s h
  obtain ⟨hi, hc⟩ := inv_and_causeHolds_of_reachable h
  refine ⟨hi.ipAligned, hi.ipInside, fun hr => ?_, fun he => ?_⟩
  · exact (Nat.lt_or_ge s.ip s.len).imp_right (step_endOfMemory s hr)
  · rw [State.CauseHolds, he] at hc
    obtain ⟨_, _, hip, hpos⟩ := hc
    exact ⟨hip, hpos, hip ▸ hi.ipAligned⟩

/-! ### Status, `len`, `ip` and the payload registers over a step -/

theorem exists_overflow_iff {s : State} {k : ArithOp} (hop : s.opcodeAt = arithValue k) :
    (∃ j, s.opcodeAt = arithValue j ∧ ¬ InInt64 (s.exactAt j)) ↔ ¬ InInt64 (s.exactAt k) :=
  ⟨fun ⟨j, hj, hout⟩ => arithValue_inj j k (hj.symm.trans hop) ▸ hout, fun hout => ⟨k, hop, hout⟩⟩

/-- Settles O13: in each way a step can go, its own facts refute the causes of all the other statuses. -/
theorem eachStatusHasItsExactCause : Obligations.EachStatusHasItsExactCause := by
  refine ⟨by decide, fun s t h => ?_⟩
  obtain ⟨hr, he⟩ := stepEffect_of_next h
  cases he with
  | endOfMemory hip =>
    have h0 : ¬ s.ip < s.len := by omega
    have h3 : ¬ s.ip + 3 < s.len := by omega
    simp [hip, h0, h3]
  | halted hip hop =>
    have hk (k : ArithOp) : (99 : Int) ≠ arithValue k := by cases k <;> decide
    simp [hip, hop, hk]
  | unknownOpCode hip h1 h2 h99 =>
    have hk (k : ArithOp) : s.opcodeAt ≠ arithValue k := by cases k <;> assumption
    simp [hip, h1, h2, h99, hk]
  | notEnoughParams k hop hip hlen =>
    have h3 : ¬ s.ip + 3 < s.len := by omega
    obtain h12 | h12 := one_or_two_of_opcode hop <;> simp [h12, hip, hlen, h3]
  | segFault k hop hlen hbad =>
    have hip : s.ip < s.len := by omega
    obtain h12 | h12 := one_or_two_of_opcode hop <;> simp [h12, hip, hlen, hbad]
  | arithOverflow k hop hlen hvalid hmode hout =>
    have hip : s.ip < s.len := by omega
    rw [exists_overflow_iff hop]
    obtain h12 | h12 := one_or_two_of_opcode hop <;> simp [h12, hip, hlen, hvalid, hmode, hout]
  | completed k r hop hlen hvalid hres =>
    have hip : s.ip < s.len := by omega
    have hno : ¬ (Config.overflowMode = .fault ∧ ¬ InInt64 (s.exactAt k)) := by
      obtain ⟨hin, _⟩ | ⟨_, hmode, _⟩ := hres
      · exact fun h => h.2 hin
      · simp [hmode]
    rw [exists_overflow_iff hop]
    obtain h12 | h12 := one_or_two_of_opcode hop <;> simp [-not_and, h12, hr, hip, hlen, hvalid, hno]

/-- Settles O28: neither a completed ADD or MUL nor the end of a run writes `len`. -/
theorem lenIsSetAtTheStartOnly : Obligations.LenIsSetAtTheStartOnly := by
  refine ⟨fun image => by rw [startState_eq], fun s t h => ?_⟩
  obtain ⟨_, _, _, _, _, rfl⟩ | ⟨_, _, hl, _⟩ := (stepEffect_of_next h).2.completed_or_ended
  · rfl
  · exact hl

/-- Settles O29: the two kinds of step are its two alternatives. -/
theorem ipMovesOnlyByCompletedArithmetic : Obligations.IpMovesOnlyByCompletedArithmetic := by
  refine ⟨fun image => by rw [startState_eq], fun s t h => ?_⟩
  obtain ⟨hr, he⟩ := stepEffect_of_next h
  obtain ⟨k, _, hop, _, _, rfl⟩ | ⟨hst, hm, _, hi⟩ := he.completed_or_ended
  · exact .inl ⟨hr, one_or_two_of_opcode hop, rfl⟩
  · exact .inr ⟨hst, hi, hm⟩

/-- An error that carries an operation names the one whose opcode stands at `ip` (R18). -/
theorem opcode_and_errOp_of_arith {s : State} {k : ArithOp} (h : s.opcodeAt = arithValue k) :
    (s.opcodeAt = 1 ∧ ErrOp.ofArith k = .add) ∨ (s.opcodeAt = 2 ∧ ErrOp.ofArith k = .mul) := by
  cases k with
  | add => exact .inl ⟨h, rfl⟩
  | mul => exact .inr ⟨h, rfl⟩

/-- What a step writes into `err_op` and `err_val` (R18, R19). -/
theorem StepEffect.payload {s t : State} (h : StepEffect s t) (hr : s.status = .running) :
    ((t.status = .errNotEnoughParams ∨ t.status = .errArithOverflow) →
      (s.opcodeAt = 1 ∧ t.errOp = .add) ∨ (s.opcodeAt = 2 ∧ t.errOp = .mul)) ∧
    (t.status ≠ .errNotEnoughParams → t.status ≠ .errArithOverflow → t.errOp = s.errOp) ∧
    (t.status = .errUnknownOpCode → t.errVal = Memory.read s.mem s.ip) ∧
    (t.status ≠ .errUnknownOpCode → t.errVal = s.errVal) := by
  cases h with
  | notEnoughParams k hop _ _ =>
    exact ⟨fun _ => opcode_and_errOp_of_arith hop, fun hn => absurd rfl hn, nofun, fun _ => rfl⟩
  | arithOverflow k hop _ _ _ _ =>
    exact ⟨fun _ => opcode_and_errOp_of_arith hop, fun _ hn => absurd rfl hn, nofun, fun _ => rfl⟩
  | unknownOpCode => exact ⟨nofun, fun _ _ => rfl, fun _ => rfl, fun hn => absurd rfl hn⟩
  | _ => simp [hr]

theorem result_update_errOp (s : State) (o : ErrOp) (h4 : s.status ≠ .errNotEnoughParams)
    (h7 : s.status ≠ .errArithOverflow) : State.result { s with errOp := o } = s.result := by
  obtain ⟨_, _, _, st, _, _⟩ := s
  cases st with
  | errNotEnoughParams => exact absurd rfl h4
  | errArithOverflow => exact absurd rfl h7
  | _ => rfl

theorem result_update_errVal (s : State) (v : Word) (h6 : s.status ≠ .errUnknownOpCode) :
    State.result { s with errVal := v } = s.result := by
  obtain ⟨_, _, _, st, _, _⟩ := s
  cases st with
  | errUnknownOpCode => exact absurd rfl h6
  | _ => rfl

theorem errOp_code_ne_three (e : ErrOp) : e.code ≠ 3 := by cases e <;> decide

/-- Settles O30, by what each way a step can go writes, and by the result's match on `status`. -/
theorem payloadRegistersRecordTheError : Obligations.PayloadRegistersRecordTheError := by
  refine ⟨fun image => by rw [startState_eq]; exact ⟨rfl, rfl⟩, fun s t h => ?_, rfl, rfl, rfl, errOp_code_ne_three,
    result_update_errOp, result_update_errVal⟩
  obtain ⟨hr, he⟩ := stepEffect_of_next h
  exact he.payload hr

/-! ### The memory list -/

/-- In canonical form the entries are the cells that do not hold `unlisted`, each with its value. -/
theorem mem_iff_read {m : Memory} (h : Memory.wf m) (a : Nat) (v : Word) :
    (a, v) ∈ m ↔ v ≠ unlisted ∧ Memory.read m a = v := by
  obtain ⟨hs, hv⟩ := h
  induction m with
  | nil => simp [Memory.read, eq_comm]
  | cons e rest ih =>
    obtain ⟨b, w⟩ := e
    obtain ⟨hb, hs⟩ := List.pairwise_cons.1 hs
    obtain ⟨hw, hv⟩ := List.forall_mem_cons.1 hv
    rw [List.mem_cons, ih hs hv, Memory.read]
    by_cases hab : a = b
    · have hrest : Memory.read rest a = unlisted := read_unlisted _ _ fun e he => hab ▸ (hb e he).ne'
      subst hab
      simp only [hrest, if_true, Prod.mk.injEq, true_and]
      constructor
      · rintro (rfl | ⟨hne, rfl⟩)
        · exact ⟨hw, rfl⟩
        · exact absurd rfl hne
      · exact fun ⟨_, hwv⟩ => .inl hwv.symm
    · simp [hab]

/-- Settles O36: two lists of the same entries, both in strictly rising order, are equal. -/
theorem equalContentsAreEqualMemories : Obligations.EqualContentsAreEqualMemories := by
  intro m m' h h' heq
  have hnodup {l : Memory} (hl : Memory.wf l) : l.Nodup := hl.1.imp fun hlt => by rintro rfl; exact lt_irrefl _ hlt
  have hperm : m.Perm m' := (List.perm_ext_iff_of_nodup (hnodup h) (hnodup h')).2 fun ⟨a, v⟩ => by
    rw [mem_iff_read h, mem_iff_read h', heq]
  exact hperm.eq_of_pairwise (fun _ _ _ _ hlt hgt => absurd hgt hlt.asymm) h.1 h'.1

/-! ### Reset -/

/-- Settles O38, by evaluating the start of the empty image. -/
theorem resetIsTheStartOfTheEmptyImage : Obligations.ResetIsTheStartOfTheEmptyImage :=
  ⟨startState_nil.symm, reset_mem_wf, fun _ => rfl, rfl, rfl, rfl, rfl, rfl⟩

end Sys2Proof.Machine
end

section
/-! The exact answer of the shared procedure and of a step, one equation per branch; then the memory family: what the
fetch reads, which cell a step writes, on which cells it depends, and how a write into the next instruction is seen. -/

namespace Sys2Proof.Machine

/-! ### One equation per branch of the shared procedure -/

section
variable {s : State} {mode : OverflowMode} {k : ArithOp} {src1 src2 dest : Word}

theorem execArith_of_len_le (hlen : s.len ≤ s.ip + 3) :
    execArith mode k src1 src2 dest s = s.raise (.notEnoughParams k) :=
  if_neg fun hp => hlen.not_gt ((operandsPresent_iff s).1 hp)

theorem execArith_of_not_valid (hlen : s.ip + 3 < s.len) (hbad : ¬ (s.Valid src1 ∧ s.Valid src2 ∧ s.Valid dest)) :
    execArith mode k src1 src2 dest s = s.raise .segFault :=
  (if_pos ((operandsPresent_iff s).2 hlen)).trans (if_neg fun hv => hbad ((operandsValid_iff_valid s _ _ _).1 hv))

theorem execArith_of_alu_none (hlen : s.ip + 3 < s.len) (hvalid : s.Valid src1 ∧ s.Valid src2 ∧ s.Valid dest)
    (halu : alu mode k (s.readOperand src1) (s.readOperand src2) = none) :
    execArith mode k src1 src2 dest s = s.raise (.arithOverflow k) := by
  rw [execArith, if_pos ((operandsPresent_iff s).2 hlen), if_pos ((operandsValid_iff_valid s _ _ _).2 hvalid), halu]

theorem execArith_of_alu_some {r : Word} (hlen : s.ip + 3 < s.len)
    (hvalid : s.Valid src1 ∧ s.Valid src2 ∧ s.Valid dest)
    (halu : alu mode k (s.readOperand src1) (s.readOperand src2) = some r) :
    execArith mode k src1 src2 dest s = (s.writeOperand dest r).advance := by
  rw [execArith, if_pos ((operandsPresent_iff s).2 hlen), if_pos ((operandsValid_iff_valid s _ _ _).2 hvalid), halu]

end

/-! ### The step for each opcode value -/

section
variable {s : State} (hr : s.status = .running) (hip : s.ip < s.len)
include hr hip

/-- Where operand cells are missing too: the meaning then raises NotEnoughParams before it looks at them (R64, R70). -/
theorem step_eq_exec_of_arith {k : ArithOp} (hop : s.opcodeAt = arithValue k) :
    step s = exec (k.instr (s.operandCell 1) (s.operandCell 2) (s.operandCell 3)) s :=
  (step_arith s k hr hip ((read_eq_opcode s k).2 hop)).trans (exec_arith _ _ _ _ _).symm

theorem step_of_arith_short {k : ArithOp} (hop : s.opcodeAt = arithValue k) (hlen : s.len ≤ s.ip + 3) :
    step s = .next (s.raise (.notEnoughParams k)) := by
  rw [step_eq_exec_of_arith hr hip hop, exec_arith, execArith_of_len_le hlen]

theorem step_of_ninetyNine (hop : s.opcodeAt = 99) : step s = .next (s.endRun .halted) :=
  step_hlt s hr hip ((word_eq_ninetyNine _).2 hop)

theorem step_of_unknown (h1 : s.opcodeAt ≠ 1) (h2 : s.opcodeAt ≠ 2) (h99 : s.opcodeAt ≠ 99) :
    step s = .next (s.raise (.unknownOpCode (Memory.read s.mem s.ip))) := by
  refine step_unknown s hr hip ?_
  obtain ⟨k, hk, _⟩ | ⟨hh, _⟩ | ⟨_, _, _, hu⟩ := decodeOp_cases (Memory.read s.mem s.ip)
  · obtain h | h := one_or_two_of_opcode ((read_eq_opcode s k).1 hk)
    · exact absurd h h1
    · exact absurd h h2
  · exact absurd ((word_eq_ninetyNine _).1 hh) h99
  · exact hu

end

/-! ### The fetch and the data reads -/

/-- Settles O7: the fetch is a slice of the memory array. -/
theorem fetchReadsTheCellsAtIp : Obligations.FetchReadsTheCellsAtIp := by
  refine fun s => ⟨slice_length _ _ _, fun n hn hlen => ?_⟩
  have hlt : n < s.fetchCells.length := by
    rw [State.fetchCells, slice_length, maxInstrCells]
    omega
  rw [List.getElem?_eq_getElem hlt]
  exact congrArg some (slice_getElem _ _ _ _ hlt)

/-- An Add or Multiply whose operand cells exist, whose addresses are valid and whose exact result fits int64 stores that
result, taken from the memory before the step. -/
theorem step_stores_exactAt {s : State} {k : ArithOp} (hr : s.status = .running) (hlen : s.ip + 3 < s.len)
    (hvalid : s.AddressesValid) (hop : s.opcodeAt = arithValue k) (hin : InInt64 (s.exactAt k)) :
    ∃ t, step s = .next t ∧ Stored s t (s.operandCell 3) (s.exactAt k) := by
  rw [← exactOf_cells] at hin ⊢
  have hfit := (fitsInt64_iff _).2 hin
  rw [step_eq_exec_of_arith hr (by omega) hop, exec_arith,
    execArith_of_alu_some hlen hvalid (alu_of_fits _ _ _ _ hfit)]
  exact ⟨_, rfl, toInt_ofInt_of_fits _ hfit ▸ stored_advance s _ _ hvalid.2.2⟩

/-- Settles O25: one lemma over the operation gives both clauses. -/
theorem stepComputesWithTheOldValues : Obligations.StepComputesWithTheOldValues :=
  fun _ hr hlen hvalid => ⟨step_stores_exactAt hr hlen hvalid (k := .add), step_stores_exactAt hr hlen hvalid (k := .mul)⟩

/-! ### The cell a step writes -/

/-- Settles O32: only a completed ADD or MUL writes, and its destination is an address inside the array. -/
theorem onlyTheDestinationCellIsWritten : Obligations.OnlyTheDestinationCellIsWritten := by
  intro s t a h ha
  obtain ⟨k, r, _, _, ⟨_, _, hd⟩, rfl⟩ | ⟨_, hm, _⟩ := (stepEffect_of_next h).2.completed_or_ended
  · obtain ⟨_, hframe, _⟩ := stored_advance s (s.operandCell 3) r hd
    have hne : (a : Int) ≠ (s.operandCell 3).toInt := by
      obtain ha | ha := ha
      · have := hd.2
        omega
      · exact ha
    exact hframe a hne
  · rw [hm]

/-! ### The cells a step depends on -/

/-- Two machines that agree in their registers and in the cells of the array, and may differ in what their memory lists
hold past it. -/
structure AgreeInArray (s s' : State) : Prop where
  registers : SameRegisters s s'
  cells : ∀ a, a < s.len → Memory.read s.mem a = Memory.read s'.mem a

section
variable {s s' : State}

/-- The two differ in the memory list alone, so that what is said of `len`, `ip` and addresses holds of both. -/
theorem AgreeInArray.exists_mem (h : AgreeInArray s s') : ∃ m, s' = { s with mem := m } := by
  obtain ⟨hl, hi, hs, ho, hv⟩ := h.registers
  exact ⟨s'.mem, by rw [hl, hi, hs, ho, hv]⟩

theorem AgreeInArray.endRun (h : AgreeInArray s s') (st : Status) : AgreeInArray (s.endRun st) (s'.endRun st) := by
  obtain ⟨m, rfl⟩ := h.exists_mem
  exact ⟨⟨rfl, rfl, rfl, rfl, rfl⟩, h.cells⟩

theorem AgreeInArray.raise (h : AgreeInArray s s') (e : ExecutionError) : AgreeInArray (s.raise e) (s'.raise e) := by
  obtain ⟨m, rfl⟩ := h.exists_mem
  exact ⟨⟨rfl, rfl, rfl, rfl, rfl⟩, h.cells⟩

theorem AgreeInArray.writeOperand_advance (h : AgreeInArray s s') (dest r : Word) :
    AgreeInArray (s.writeOperand dest r).advance (s'.writeOperand dest r).advance := by
  obtain ⟨m, rfl⟩ := h.exists_mem
  refine ⟨⟨rfl, rfl, rfl, rfl, rfl⟩, fun a ha => ?_⟩
  simp only [State.advance_mem, State.writeOperand_mem, read_write, h.cells a ha]

theorem AgreeInArray.readOperand (h : AgreeInArray s s') {a : Word} (ha : s.Valid a) :
    s.readOperand a = s'.readOperand a := h.cells _ (cellIndex_lt s a ((valid_iff s a).2 ha))

theorem AgreeInArray.valid_iff (h : AgreeInArray s s') (a : Word) : s.Valid a ↔ s'.Valid a := by
  obtain ⟨m, rfl⟩ := h.exists_mem
  exact Iff.rfl

/-- The shared procedure reads its two source cells behind the address check only. -/
theorem AgreeInArray.execArith (h : AgreeInArray s s') (mode : OverflowMode) (k : ArithOp) (src1 src2 dest : Word) :
    AgreeInArray (execArith mode k src1 src2 dest s) (execArith mode k src1 src2 dest s') := by
  obtain ⟨hl, hi, _⟩ := h.registers
  obtain hlen | hlen := Nat.lt_or_ge (s.ip + 3) s.len
  · have hlen' : s'.ip + 3 < s'.len := by omega
    by_cases hvalid : s.Valid src1 ∧ s.Valid src2 ∧ s.Valid dest
    · have hvalid' : s'.Valid src1 ∧ s'.Valid src2 ∧ s'.Valid dest := by simpa only [h.valid_iff] using hvalid
      have hread : alu mode k (s.readOperand src1) (s.readOperand src2) =
          alu mode k (s'.readOperand src1) (s'.readOperand src2) := by
        rw [h.readOperand hvalid.1, h.readOperand hvalid.2.1]
      cases halu : alu mode k (s.readOperand src1) (s.readOperand src2) with
      | none =>
        rw [execArith_of_alu_none hlen hvalid halu, execArith_of_alu_none hlen' hvalid' (hread ▸ halu)]
        exact h.raise _
      | some r =>
        rw [execArith_of_alu_some hlen hvalid halu, execArith_of_alu_some hlen' hvalid' (hread ▸ halu)]
        exact h.writeOperand_advance dest r
    · have hbad : ¬ (s'.Valid src1 ∧ s'.Valid src2 ∧ s'.Valid dest) := by simpa only [h.valid_iff] using hvalid
      rw [execArith_of_not_valid hlen hvalid, execArith_of_not_valid hlen' hbad]
      exact h.raise _
  · rw [execArith_of_len_le hlen, execArith_of_len_le (by omega)]
    exact h.raise _

/-- The operand cells are read inside the array, too: where one is missing, their values decide nothing (R70). -/
theorem AgreeInArray.execArith_operandCells (h : AgreeInArray s s') (mode : OverflowMode) (k : ArithOp) :
    AgreeInArray (Machine.execArith mode k (s.operandCell 1) (s.operandCell 2) (s.operandCell 3) s)
      (Machine.execArith mode k (s'.operandCell 1) (s'.operandCell 2) (s'.operandCell 3) s') := by
  obtain ⟨hl, hi, _⟩ := h.registers
  obtain hlen | hlen := Nat.lt_or_ge (s.ip + 3) s.len
  · have hcell (n : Nat) (hn : n ≤ 3) : s.operandCell n = s'.operandCell n := by
      rw [State.operandCell, h.cells _ (by omega), hi, State.operandCell]
    rw [hcell 1 (by decide), hcell 2 (by decide), hcell 3 (by decide)]
    exact h.execArith _ _ _ _ _
  · rw [execArith_of_len_le hlen, execArith_of_len_le (by omega)]
    exact h.raise _

/-- In each way a step can go, the machine that agrees goes the same way. -/
theorem AgreeInArray.step {t : State} (h : AgreeInArray s s') (hstep : step s = .next t) :
    ∃ t', Machine.step s' = .next t' ∧ AgreeInArray t t' := by
  obtain ⟨hl, hi, hs, _⟩ := h.registers
  obtain ⟨hr, hcases⟩ := step_next_cases s t hstep
  rw [hs] at hr
  obtain ⟨hle, rfl⟩ | ⟨hip, hop, rfl⟩ | ⟨hip, h1, h2, h99, rfl⟩ | ⟨hip, k, hop, rfl⟩ := hcases
  · exact ⟨_, step_endOfMemory s' hr (by omega), h.endRun _⟩
  all_goals
    have hip' : s'.ip < s'.len := by omega
    have hcell : Memory.read s'.mem s'.ip = Memory.read s.mem s.ip := hi ▸ (h.cells _ hip).symm
    have hopcode : s'.opcodeAt = s.opcodeAt := congrArg BitVec.toInt hcell
  · exact ⟨_, step_of_ninetyNine hr hip' (hopcode.trans hop), h.endRun _⟩
  · exact ⟨_, step_of_unknown hr hip' (hopcode ▸ h1) (hopcode ▸ h2) (hopcode ▸ h99), hcell ▸ h.raise _⟩
  · exact ⟨_, (step_eq_exec_of_arith hr hip' (hopcode.trans hop)).trans (exec_arith _ _ _ _ _),
      h.execArith_operandCells _ k⟩

end

/-- Settles O33: what the hypotheses ask and what the conclusion says is `AgreeInArray`. -/
theorem stepReadsNoCellOutsideTheArray : Obligations.StepReadsNoCellOutsideTheArray := by
  intro s s' t hregs hcells hstep
  obtain ⟨t', hstep', ht⟩ := AgreeInArray.step ⟨hregs, hcells⟩ hstep
  exact ⟨t', hstep', ht.registers, lenIsSetAtTheStartOnly.2 s t hstep ▸ ht.cells⟩

/-- Settles O34: behind the loop test, the opcode cell alone tells a Halt from an Unknown opcode. -/
theorem haltAndUnknownReadOnlyTheOpcode : Obligations.HaltAndUnknownReadOnlyTheOpcode := by
  intro s s' t hr ⟨hl, hi, hs, _, hv⟩ hip hcell h1 h2 hstep
  rw [hs] at hr
  have hip' : s'.ip < s'.len := by omega
  have hcell' : Memory.read s'.mem s'.ip = Memory.read s.mem s.ip := hi ▸ hcell.symm
  have hopcode : s'.opcodeAt = s.opcodeAt := congrArg BitVec.toInt hcell'
  obtain ⟨_, ⟨hle, _⟩ | ⟨_, hop, rfl⟩ | ⟨_, _, _, h99, rfl⟩ | ⟨_, k, hop, _⟩⟩ := step_next_cases s t hstep
  · exact absurd hip hle.not_gt
  · rw [step_of_ninetyNine hr hip' (hopcode.trans hop), State.endRun_errVal, hv]
    rfl
  · rw [step_of_unknown hr hip' (hopcode ▸ h1) (hopcode ▸ h2) (hopcode ▸ h99), hcell']
    rfl
  · obtain h | h := one_or_two_of_opcode hop
    · exact absurd h h1
    · exact absurd h h2

/-! ### A write into the next instruction -/

/-- The cells of the next instruction after a completed write into its cell `j`: that one holds what was written. -/
theorem operandCell_writeOperand_advance (s : State) (dest r : Word) (j i : Nat)
    (hdest : dest.toInt = (s.ip : Int) + 4 + (j : Int)) :
    (s.writeOperand dest r).advance.operandCell i = if j = i then r else s.operandCell (4 + i) := by
  have hcell : s.ip + (4 + i) = cellIndex dest ↔ j = i := by
    rw [cellIndex]
    omega
  rw [State.operandCell, State.advance_ip, State.writeOperand_ip, State.advance_mem, State.writeOperand_mem, read_write,
    Nat.add_assoc, State.operandCell]
  simp only [hcell]

/-- A completed ADD or MUL whose destination is cell `j` of the next instruction: its result stands there, and the other
cells are as they were. -/
theorem step_arith_writes_next {s t : State} {k : ArithOp} (j : Nat) (hop : s.opcodeAt = arithValue k)
    (hip : s.ip < s.len) (hdest : (s.operandCell 3).toInt = (s.ip : Int) + 4 + (j : Int)) (h : step s = .next t)
    (ht : t.status = .running) :
    ∃ v : Word, v.toInt = wrap64 (s.exactAt k) ∧ (InInt64 (s.exactAt k) → v.toInt = s.exactAt k) ∧
      t.ip = s.ip + 4 ∧ t.len = s.len ∧ ∀ i, t.operandCell i = if j = i then v else s.operandCell (4 + i) := by
  obtain ⟨_, _, r, rfl, hwrap, hexact⟩ := step_arith_completed s t k hop h ht hip
  exact ⟨r, hwrap, hexact, rfl, rfl, fun i => operandCell_writeOperand_advance s _ r j i hdest⟩

/-- Settles O35: the next opcode cell is cell 0 of the next instruction. -/
theorem nextOpcodeWrittenIsTheOneFetched : Obligations.NextOpcodeWrittenIsTheOneFetched := by
  intro k s t _ hop hlen hdest h ht
  obtain ⟨v, hwrap, hexact, htip, htlen, hcells⟩ := step_arith_writes_next 0 hop (by omega) (by simpa using hdest) h ht
  have hv : Memory.read t.mem t.ip = v := hcells 0
  have hopcode : t.opcodeAt = v.toInt := congrArg BitVec.toInt hv
  have hip : t.ip < t.len := by omega
  refine ⟨v, hwrap, hexact, htip, hv, ?_⟩
  rw [← hopcode]
  exact ⟨fun h1 _ => step_eq_exec_of_arith ht hip (k := .add) h1,
    fun h2 _ => step_eq_exec_of_arith ht hip (k := .mul) h2,
    fun h1 hshort => step_of_arith_short ht hip (k := .add) h1 hshort,
    fun h2 hshort => step_of_arith_short ht hip (k := .mul) h2 hshort,
    step_of_ninetyNine ht hip,
    fun h1 h2 h99 => hv ▸ step_of_unknown ht hip h1 h2 h99⟩

/-- Settles O48: the operands of the next step are cells 1 to 3 of the next instruction, of which `j` has been written. -/
theorem nextOperandsWrittenAreTheOnesUsed : Obligations.NextOperandsWrittenAreTheOnesUsed := by
  intro k s t j _ hop hlen hj _ hdest h ht
  obtain ⟨v, hwrap, hexact, htip, htlen, hcells⟩ := step_arith_writes_next j hop (by omega) hdest h ht
  have hip : t.ip < t.len := by omega
  have hopcode : t.opcodeAt = (s.operandCell 4).toInt :=
    congrArg BitVec.toInt ((hcells 0).trans (if_neg (by omega)))
  have hstep (k' : ArithOp) (hk' : t.opcodeAt = arithValue k') :
      step t = exec (k'.instr (if j = 1 then v else s.operandCell 5) (if j = 2 then v else s.operandCell 6)
        (if j = 3 then v else s.operandCell 7)) t := by
    rw [step_eq_exec_of_arith ht hip hk', hcells 1, hcells 2, hcells 3]
  exact ⟨v, hwrap, hexact, hopcode, hstep .add, hstep .mul⟩

end Sys2Proof.Machine
end

section
/-! The encoding family: the classification of an opcode cell as one `↔` per answer, and the inverse of the decoder. -/

namespace Sys2Proof.Machine

/-! ### The classification of an opcode cell -/

theorem decodeOp_eq_arith_iff (v : Word) (k : ArithOp) : decodeOp v = .arith k ↔ v = k.opcode := by
  refine ⟨fun h => ?_, fun h => h ▸ decodeOp_opcode k⟩
  obtain ⟨j, hv, hj⟩ | ⟨_, hh⟩ | ⟨_, _, _, hu⟩ := decodeOp_cases v
  · cases hj.symm.trans h
    exact hv
  · cases hh.symm.trans h
  · cases hu.symm.trans h

theorem decodeOp_eq_halt_iff (v : Word) : decodeOp v = .halt ↔ v = haltOpcode := by
  refine ⟨fun h => ?_, fun h => h ▸ decodeOp_ninetyNine⟩
  obtain ⟨_, _, hj⟩ | ⟨hv, _⟩ | ⟨_, _, _, hu⟩ := decodeOp_cases v
  · cases hj.symm.trans h
  · exact hv
  · cases hu.symm.trans h

theorem decodeOp_eq_unknown_iff (v : Word) : decodeOp v = .unknown v ↔ v ≠ 1 ∧ v ≠ 2 ∧ v ≠ 99 := by
  obtain ⟨k, rfl, _⟩ | ⟨rfl, _⟩ | ⟨h1, h2, h99, hu⟩ := decodeOp_cases v
  · cases k <;> decide
  · decide
  · exact iff_of_true hu ⟨h1, h2, h99⟩

/-- Settles O2: a cell is one of the three opcode words exactly when its signed value is that number. -/
theorem decoderComparesTheWholeCell : Obligations.DecoderComparesTheWholeCell := by
  intro v
  simp only [ne_eq, ← word_eq_one, ← word_eq_two, ← word_eq_ninetyNine]
  exact ⟨decodeOp_eq_arith_iff v .add, decodeOp_eq_arith_iff v .mul, decodeOp_eq_halt_iff v, decodeOp_eq_unknown_iff v⟩

/-! ### The decoder and the encoder -/

/-- The encoding of format A begins with the operation's opcode (R43). -/
theorem encode_instr (k : ArithOp) (src1 src2 dest : Word) :
    encode (k.instr src1 src2 dest) = [k.opcode, src1, src2, dest] := by cases k <;> rfl

theorem decode_encode_append (i : Instr) (rest : List Word) : decode (encode i ++ rest) = .instr i rest := by
  cases i with
  | add src1 src2 dest => exact decode_arith .add src1 src2 dest rest
  | mul src1 src2 dest => exact decode_arith .mul src1 src2 dest rest
  | hlt => exact decode_halt rest

/-- No other cells decode to an instruction: the opcode cell fixes the format, and format A needs three more (R46). -/
theorem eq_encode_append_of_decode {cells : List Word} {i : Instr} {rest : List Word}
    (h : decode cells = .instr i rest) : cells = encode i ++ rest := by
  cases cells with
  | nil => cases h
  | cons v tail =>
    obtain ⟨k, rfl, _⟩ | ⟨rfl, _⟩ | ⟨_, _, _, hu⟩ := decodeOp_cases v
    · match tail with
      | src1 :: src2 :: dest :: after =>
        cases (decode_arith k src1 src2 dest after).symm.trans h
        rw [encode_instr]
        rfl
      | [] | [_] | [_, _] => cases (decode_arith_short k _ (by simp)).symm.trans h
    · cases (decode_halt tail).symm.trans h
      rfl
    · cases (decode_unknown v tail hu).symm.trans h

/-- Settles O3: the encoding decodes to its instruction, and nothing else does. -/
theorem decodingInvertsEncoding : Obligations.DecodingInvertsEncoding :=
  fun _ i rest => ⟨eq_encode_append_of_decode, fun h => h ▸ decode_encode_append i rest⟩

/-- Settles O4: both are the round trip of an instruction of format A. -/
theorem formatAAcceptsEveryOperandValue : Obligations.FormatAAcceptsEveryOperandValue :=
  fun src1 src2 dest rest => ⟨decode_encode_append (.add src1 src2 dest) rest,
    decode_encode_append (.mul src1 src2 dest) rest⟩

/-- Settles O5: the round trip of HLT. -/
theorem haltTakesOneCell : Obligations.HaltTakesOneCell := decode_encode_append .hlt

/-- Settles O1: the lists are the decoder's branches at literal cells; the table words are evaluated. -/
theorem wordsFromTheSpecDecode : Obligations.WordsFromTheSpecDecode :=
  ⟨by decide, by decide, by decide, by decide,
    decode_encode_append (.add 9 10 3) [2, 3], decode_encode_append (.mul 3 11 0) [99],
    decode_encode_append .hlt [30, 40, 50], decode_arith_short .add [1, 1] (by decide),
    decode_unknown 1001 _ ((decodeOp_eq_unknown_iff _).2 (by decide))⟩

end Sys2Proof.Machine
end

section
/-! The sequencer family: the step for each kind of opcode cell, the start and the result, and the end of every run. -/

namespace Sys2Proof.Machine

/-! ### The step -/

/-- Settles O8: one lemma over the operation gives the clauses of ADD and MUL, and the meaning of HLT the third. -/
theorem stepDispatchesOnTheOpcodeCell : Obligations.StepDispatchesOnTheOpcodeCell :=
  fun s hr => ⟨fun hlen h1 => step_eq_exec_of_arith hr (by omega) (k := .add) h1,
    fun hlen h2 => step_eq_exec_of_arith hr (by omega) (k := .mul) h2,
    fun hip h99 => (step_of_ninetyNine hr hip h99).trans (exec_hlt s).symm⟩

/-- Past the end of memory there is no cell to fetch. -/
theorem fetchCells_of_len_le {s : State} (h : s.len ≤ s.ip) : s.fetchCells = [] := by
  rw [State.fetchCells, Nat.sub_eq_zero_of_le h]
  rfl

/-- Settles O6: the loop test has passed, as no cells decode to no instruction. -/
theorem stepRunsTheDecodedInstruction : Obligations.StepRunsTheDecodedInstruction := by
  intro s i rest hr hd
  have hip : s.ip < s.len := by
    by_contra hle
    rw [fetchCells_of_len_le (not_lt.1 hle)] at hd
    cases hd
  rw [step_running s hr hip, hd, dispatchDecoded]

/-- Settles O9: in a run, the invariant bounds `ip` from above, and a running machine is never empty. -/
theorem endOfMemoryIsSuccess : Obligations.EndOfMemoryIsSuccess := by
  refine fun s hr hle => ⟨step_endOfMemory s hr hle, rfl, fun hs => ?_⟩
  obtain ⟨hi, hc⟩ := inv_and_causeHolds_of_reachable hs
  obtain ⟨_, _, hpos⟩ := (causeHolds_of_running hr).1 hc
  exact ⟨le_antisymm hi.ipInside hle, hpos⟩

/-- Settles O10, by what taking UnknownOpCode writes. -/
theorem unknownOpcodeEndsTheRun : Obligations.UnknownOpcodeEndsTheRun :=
  fun _ hr hip h1 h2 h99 => (step_of_unknown hr hip h1 h2 h99).trans (congrArg _ (raise_unknownOpCode _ _))

/-- Settles O11: the step of a terminal state answers a fault, and the loop tests `status` before it steps. -/
theorem terminalStatesNeverChange : Obligations.TerminalStatesNeverChange := by
  refine fun s hs => ⟨fun t h => ?_, fun n => runLoop_terminal n s hs⟩
  rw [step_terminal s hs] at h
  cases h

/-- Settles O12: every way a running machine can go has a next state. -/
theorem stepIsEnabledExactlyWhenRunning : Obligations.StepIsEnabledExactlyWhenRunning := by
  refine fun s => ⟨fun ⟨t, h⟩ => (step_next_cases s t h).1, fun hr => ?_⟩
  obtain ⟨hn, _⟩ | ⟨_, _, h⟩ | ⟨_, _, _, _, h⟩ | ⟨_, _, _, h⟩ | ⟨_, _, _, _, _, h⟩ := step_cases s
  · exact absurd hr hn
  all_goals exact ⟨_, h⟩

/-! ### The start -/

/-- The array a start leaves is the image (R51). -/
theorem startState_image (image : List Word) : (startState image).image = image := by
  rw [startState_eq]
  refine List.ext_getElem (slice_length _ _ _) fun i _ hi => ?_
  exact (slice_getElem _ _ _ _ _).trans (read_ofCells 0 i image hi)

theorem start_of_length_le {image : List Word} (h : image.length ≤ Config.maxLen) :
    start image = .next (startState image) := if_pos ((imageWellFormed_iff image).2 h)

theorem start_of_maxLen_lt {image : List Word} (h : Config.maxLen < image.length) :
    start image = .refused .imageTooLong := if_neg fun hw => h.not_ge ((imageWellFormed_iff image).1 hw)

/-- Settles O37: an image that fits is started as `startState` says, field by field. -/
theorem startSetsEveryComponent : Obligations.StartSetsEveryComponent := by
  refine ⟨fun image h => ⟨startState image, start_of_length_le h, ?_⟩, fun image h => start_of_maxLen_lt h⟩
  have himage := startState_image image
  rw [startState_eq] at himage ⊢
  exact ⟨fun i hi => by simpa using read_ofCells 0 i image hi, himage, rfl, rfl, rfl, rfl, rfl⟩

/-- Settles O46: the reset state is the start of the empty image. -/
theorem startStatesItsCause : Obligations.StartStatesItsCause :=
  ⟨startState_nil ▸ startState_causeHolds [], startState_causeHolds⟩

/-! ### The result -/

section
variable {s : State}

theorem result_of_errNotEnoughParams {k : ArithOp} (h : s.status = .errNotEnoughParams)
    (hop : s.errOp = ErrOp.ofArith k) : s.result = some (.err (.notEnoughParams k)) := by
  rw [State.result, h, hop]
  cases k <;> rfl

theorem result_of_errArithOverflow {k : ArithOp} (h : s.status = .errArithOverflow)
    (hop : s.errOp = ErrOp.ofArith k) : s.result = some (.err (.arithOverflow k)) := by
  rw [State.result, h, hop]
  cases k <;> rfl

/-- At the end of a run whose status is true, `err_op` names an operation where the result needs one (log entry 10). -/
theorem exists_result_of_causeHolds (hc : s.CauseHolds) (h : s.status ≠ .running) : ∃ r, s.result = some r := by
  cases hst : s.status with
  | running => exact absurd hst h
  | errNotEnoughParams =>
    rw [State.CauseHolds, hst] at hc
    obtain ⟨_, _, _, k, hop, _⟩ := hc
    exact ⟨_, result_of_errNotEnoughParams hst hop⟩
  | errArithOverflow =>
    rw [State.CauseHolds, hst] at hc
    obtain ⟨_, _, _, _, k, hop, _⟩ := hc
    exact ⟨_, result_of_errArithOverflow hst hop⟩
  | _ => exact ⟨_, by rw [State.result, hst]⟩

end

/-- Settles O39: the result's match on `status`; an error that carries an operation takes it from `err_op`. -/
theorem resultOfEachStatus : Obligations.ResultOfEachStatus := by
  intro s
  refine ⟨?_, ?_, ?_, ?_, fun h ho => result_of_errNotEnoughParams (k := .add) h ho,
    fun h ho => result_of_errNotEnoughParams (k := .mul) h ho, ?_, ?_,
    fun h ho => result_of_errArithOverflow (k := .add) h ho, fun h ho => result_of_errArithOverflow (k := .mul) h ho⟩
  all_goals
    intro h
    rw [State.result, h]

/-! ### The end of every run -/

/-- A step after which the run goes on is a completed Add or Multiply, and four more cells were there for it (R60). -/
theorem step_to_running {s t : State} (h : step s = .next t) (ht : t.status = .running) :
    (s.opcodeAt = 1 ∨ s.opcodeAt = 2) ∧ t.len = s.len ∧ t.ip = s.ip + 4 ∧ t.ip ≤ t.len := by
  obtain ⟨k, r, hop, hlen, _, rfl⟩ | ⟨hend, _⟩ := (stepEffect_of_next h).2.completed_or_ended
  · exact ⟨one_or_two_of_opcode hop, rfl, rfl, hlen⟩
  · exact absurd ht hend

/-- Every step of a run but the last uses up four cells, so that `m` steps are enough where fewer than `4 * m` cells are
left (R60). -/
theorem exists_coreRun_ended {m : Nat} {s : State} (hip : s.ip ≤ s.len) (hm : s.len < s.ip + 4 * m) :
    ∃ (n : Nat) (t : State), n ≤ m ∧ Host.Core.run core n s = .next t ∧ t.status ≠ .running := by
  induction m generalizing s with
  | zero => omega
  | succ m ih =>
    by_cases hr : s.status = .running
    · obtain ⟨u, hu⟩ := (stepIsEnabledExactlyWhenRunning s).2 hr
      by_cases hur : u.status = .running
      · obtain ⟨_, hulen, huip, hule⟩ := step_to_running hu hur
        obtain ⟨n, t, hn, hrun, ht⟩ := ih hule (by omega)
        exact ⟨n + 1, t, by omega, (coreRun_next n s u hu).trans hrun, ht⟩
      · exact ⟨1, u, by omega, coreRun_next 0 s u hu, hur⟩
    · exact ⟨0, s, Nat.zero_le _, coreRun_zero s, hr⟩

/-- The bound of R60, for the start of any image. -/
theorem exists_coreRun_startState_ended (image : List Word) :
    ∃ (n : Nat) (t : State), n ≤ image.length / 4 + 1 ∧ Host.Core.run core n (startState image) = .next t ∧
      t.status ≠ .running := by
  apply exists_coreRun_ended (startState_inv image).ipInside
  rw [startState_eq]
  simp only
  omega

/-- Settles O40: a run uses up its cells four at a time, and only a completed Add or Multiply goes on. -/
theorem everyRunEndsWithinItsStepBound : Obligations.EveryRunEndsWithinItsStepBound := by
  refine ⟨exists_coreRun_startState_ended, fun s t _ h ht => ?_⟩
  obtain ⟨hop, _, htip, htle⟩ := step_to_running h ht
  exact ⟨hop, htip, htle⟩

/-! ### The loop of a run -/

/-- The first step of a longer run, and the run that follows it. -/
theorem exists_step_of_coreRun_succ {n : Nat} {s t : State} (h : Host.Core.run core (n + 1) s = .next t) :
    ∃ u, step s = .next u ∧ Host.Core.run core n u = .next t := by
  by_cases hr : s.status = .running
  · obtain ⟨u, hu⟩ := (stepIsEnabledExactlyWhenRunning s).2 hr
    exact ⟨u, hu, (coreRun_next n s u hu).symm.trans h⟩
  · cases (coreRun_terminal n s hr).symm.trans h

theorem reachable_of_coreRun {n : Nat} {s t : State} (hs : Reachable s) (h : Host.Core.run core n s = .next t) :
    Reachable t := by
  induction n generalizing s with
  | zero =>
    cases (coreRun_zero s).symm.trans h
    exact hs
  | succ n ih =>
    obtain ⟨u, hu, hrun⟩ := exists_step_of_coreRun_succ h
    exact ih (.step s u hs hu) hrun

/-- The loop of R62 ends where the steps of the machine end, if its bound is no smaller than their number. -/
theorem runLoop_eq_of_coreRun {n m : Nat} {s t : State} (hnm : n ≤ m) (h : Host.Core.run core n s = .next t)
    (ht : t.status ≠ .running) : runLoop m s = t := by
  induction n generalizing m s with
  | zero =>
    cases (coreRun_zero s).symm.trans h
    exact runLoop_terminal m t ht
  | succ n ih =>
    obtain ⟨u, hu, hrun⟩ := exists_step_of_coreRun_succ h
    obtain ⟨m, rfl⟩ := Nat.exists_eq_add_of_le' (Nat.le_of_add_left_le hnm)
    rw [runLoop_next m s u (step_next_cases s u hu).1 hu]
    exact ih (by omega) hrun

theorem exists_runImage (image : List Word) : ∃ r, runImage image = some r := by
  obtain ⟨n, t, hn, hrun, ht⟩ := exists_coreRun_startState_ended image
  have hbound : n ≤ stepBound (startState image).len := by
    rw [startState_eq]
    exact hn
  obtain ⟨_, hc⟩ := inv_and_causeHolds_of_reachable (reachable_of_coreRun (.start image) hrun)
  rw [runImage, runLoop_eq_of_coreRun hbound hrun ht]
  exact exists_result_of_causeHolds hc ht

theorem run_of_length_le {image : List Word} (h : image.length ≤ Config.maxLen) : run image = runImage image := by
  rw [run, start_of_length_le h, runImage]

/-- Settles O41: the loop ends at a terminal state of a run, whose status says truly which result there is. -/
theorem runAnswersEveryImage : Obligations.RunAnswersEveryImage := by
  refine ⟨exists_runImage, fun image h => ?_⟩
  obtain ⟨r, hr⟩ := exists_runImage image
  exact ⟨r, (run_of_length_le h).trans hr, hr⟩

end Sys2Proof.Machine
end

section
/-! The arithmetic family: the answer of the ALU in range and in each mode out of range, its laws, and what ADD and MUL
store, raise and leave unchanged. -/

namespace Sys2Proof.Machine

/-! ### The ALU -/

section
variable {k : ArithOp} {a b : Word}

theorem exists_alu_eq_exactResult (mode : OverflowMode) (h : InInt64 (exactResult k a.toInt b.toInt)) :
    ∃ v, alu mode k a b = some v ∧ v.toInt = exactResult k a.toInt b.toInt :=
  have hfit := (fitsInt64_iff _).2 h
  ⟨_, alu_of_fits mode k a b hfit, toInt_ofInt_of_fits _ hfit⟩

theorem exists_alu_wrap_of_overflow (h : ¬ InInt64 (exactResult k a.toInt b.toInt)) :
    ∃ v, alu .wrap k a b = some v ∧ v.toInt = wrap64 (exactResult k a.toInt b.toInt) := by
  obtain ⟨hfit, _⟩ | ⟨_, _, hv⟩ | ⟨_, hmode, _⟩ := alu_cases .wrap k a b
  · exact absurd ((fitsInt64_iff _).1 hfit) h
  · exact hv
  · cases hmode

theorem alu_fault_of_overflow (h : ¬ InInt64 (exactResult k a.toInt b.toInt)) : alu .fault k a b = none := by
  obtain ⟨hfit, _⟩ | ⟨_, hmode, _⟩ | ⟨_, _, hnone⟩ := alu_cases .fault k a b
  · exact absurd ((fitsInt64_iff _).1 hfit) h
  · cases hmode
  · exact hnone

/-- Where the exact result is the number of a cell, it fits, and the answer is that cell in both modes. -/
theorem alu_eq_some_of_exactResult_eq (mode : OverflowMode) {v : Word} (h : exactResult k a.toInt b.toInt = v.toInt) :
    alu mode k a b = some v := by
  rw [alu_of_fits mode k a b (h ▸ fitsInt64_toInt v), h, BitVec.ofInt_toInt]

end

theorem exactResult_comm (k : ArithOp) (x y : Int) : exactResult k x y = exactResult k y x := by
  cases k with
  | add => exact Int.add_comm x y
  | mul => exact Int.mul_comm x y

theorem alu_comm (mode : OverflowMode) (k : ArithOp) (a b : Word) : alu mode k a b = alu mode k b a :=
  congrArg (narrow mode) (exactResult_comm k _ _)

theorem inInt64_add_of_opposite_signs {a b : Word} (ha : 0 ≤ a.toInt) (hb : b.toInt ≤ 0) :
    InInt64 (a.toInt + b.toInt) := by
  have hrange (v : Word) : InInt64 v.toInt := (fitsInt64_iff _).1 (fitsInt64_toInt v)
  obtain ⟨_, hmax⟩ := hrange a
  obtain ⟨hmin, _⟩ := hrange b
  exact ⟨by omega, by omega⟩

/-- Settles O14: the three answers of the ALU, for the exact result of either operation. -/
theorem aluIsExactOrFollowsTheMode : Obligations.AluIsExactOrFollowsTheMode :=
  fun k _ _ => ⟨fun hin mode => exists_alu_eq_exactResult (k := k) mode hin,
    fun hout => ⟨exists_alu_wrap_of_overflow (k := k) hout, alu_fault_of_overflow hout⟩⟩

/-- Settles O15: 0 and 1 give a result that is the number of a cell, opposite signs one in range; -1 times INT64_MIN is
evaluated. -/
theorem aluSignAndZeroLaws : Obligations.AluSignAndZeroLaws :=
  fun mode a b => ⟨alu_comm mode .add a b, alu_comm mode .mul a b,
    alu_eq_some_of_exactResult_eq mode (Int.add_zero a.toInt),
    alu_eq_some_of_exactResult_eq mode (Int.mul_zero a.toInt),
    alu_eq_some_of_exactResult_eq mode (Int.mul_one a.toInt),
    fun ha hb => exists_alu_eq_exactResult mode (inInt64_add_of_opposite_signs ha hb),
    by decide, by decide⟩

/-! ### What ADD and MUL store -/

section
variable {s : State} {k : ArithOp} {src1 src2 dest : Word} (hlen : s.ip + 3 < s.len)
  (hvalid : s.Valid src1 ∧ s.Valid src2 ∧ s.Valid dest)
include hlen hvalid

theorem stored_execArith_of_alu_some {mode : OverflowMode} {r : Int}
    (halu : ∃ v, alu mode k (s.readOperand src1) (s.readOperand src2) = some v ∧ v.toInt = r) :
    Stored s (execArith mode k src1 src2 dest s) dest r := by
  obtain ⟨v, hv, rfl⟩ := halu
  rw [execArith_of_alu_some hlen hvalid hv]
  exact stored_advance s dest v hvalid.2.2

theorem exec_arith_stores_exactOf (hin : InInt64 (exactOf s k src1 src2)) :
    ∃ t, exec (k.instr src1 src2 dest) s = .next t ∧ Stored s t dest (exactOf s k src1 src2) :=
  ⟨_, exec_arith k src1 src2 dest s, stored_execArith_of_alu_some hlen hvalid (exists_alu_eq_exactResult _ hin)⟩

theorem execArith_fault_of_overflow (hout : ¬ InInt64 (exactOf s k src1 src2)) :
    execArith .fault k src1 src2 dest s = s.raise (.arithOverflow k) :=
  execArith_of_alu_none hlen hvalid (alu_fault_of_overflow hout)

theorem stored_execArith_wrap_of_overflow (hout : ¬ InInt64 (exactOf s k src1 src2)) :
    Stored s (execArith .wrap k src1 src2 dest s) dest (wrap64 (exactOf s k src1 src2)) :=
  stored_execArith_of_alu_some hlen hvalid (exists_alu_wrap_of_overflow hout)

theorem exec_arith_of_overflow (hout : ¬ InInt64 (exactOf s k src1 src2)) :
    match Config.overflowMode with
    | .fault => exec (k.instr src1 src2 dest) s = .next (s.raise (.arithOverflow k))
    | .wrap => ∃ t, exec (k.instr src1 src2 dest) s = .next t ∧ Stored s t dest (wrap64 (exactOf s k src1 src2)) := by
  rw [exec_arith]
  cases Config.overflowMode with
  | fault => exact congrArg _ (execArith_fault_of_overflow hlen hvalid hout)
  | wrap => exact ⟨_, rfl, stored_execArith_wrap_of_overflow hlen hvalid hout⟩

end

/-- Settles O16: the lemma over the operation, at ADD. -/
theorem addStoresTheSum : Obligations.AddStoresTheSum :=
  fun _ _ _ _ hlen h1 h2 hd hin => exec_arith_stores_exactOf hlen ⟨h1, h2, hd⟩ (k := .add) hin

/-- Settles O17: the lemma over the operation, at MUL. -/
theorem mulStoresTheProduct : Obligations.MulStoresTheProduct :=
  fun _ _ _ _ hlen h1 h2 hd hin => exec_arith_stores_exactOf hlen ⟨h1, h2, hd⟩ (k := .mul) hin

/-- Settles O18: the lemma over the operation, at ADD. -/
theorem addOverflowFollowsTheMode : Obligations.AddOverflowFollowsTheMode :=
  fun _ _ _ _ hlen h1 h2 hd hout => exec_arith_of_overflow hlen ⟨h1, h2, hd⟩ (k := .add) hout

/-- Settles O19: the lemma over the operation, at MUL. -/
theorem mulOverflowFollowsTheMode : Obligations.MulOverflowFollowsTheMode :=
  fun _ _ _ _ hlen h1 h2 hd hout => exec_arith_of_overflow hlen ⟨h1, h2, hd⟩ (k := .mul) hout

/-! ### What ADD and MUL raise and leave unchanged -/

/-- Settles O23: the first two branches of the shared procedure. -/
theorem arithmeticMeaningsTrapInOrder : Obligations.ArithmeticMeaningsTrapInOrder :=
  fun _ _ _ _ =>
    ⟨fun hlen => ⟨congrArg _ (execArith_of_len_le hlen), congrArg _ (execArith_of_len_le hlen)⟩,
      fun hlen hbad => ⟨congrArg _ (execArith_of_not_valid hlen hbad), congrArg _ (execArith_of_not_valid hlen hbad)⟩⟩

/-- Settles O24: the frame of each branch of the shared procedure. -/
theorem arithmeticFrame : Obligations.ArithmeticFrame := by
  intro s t src1 src2 dest h
  obtain ⟨k, hk⟩ : ∃ k : ArithOp, exec (k.instr src1 src2 dest) s = .next t := h.elim (⟨.add, ·⟩) (⟨.mul, ·⟩)
  obtain rfl : execArith Config.overflowMode k src1 src2 dest s = t := by
    rw [exec_arith] at hk
    exact Host.Outcome.next.inj hk
  obtain ⟨_, he⟩ | ⟨_, _, he⟩ | ⟨_, ⟨_, _, hd⟩, ⟨_, _, he⟩ | ⟨r, _, he, _⟩⟩ :=
    execArith_effects Config.overflowMode k src1 src2 dest s <;> rw [he]
  · exact .inr ⟨rfl, rfl, rfl, rfl, .inl rfl⟩
  · exact .inr ⟨rfl, rfl, rfl, rfl, .inr (.inl rfl)⟩
  · exact .inr ⟨rfl, rfl, rfl, rfl, .inr (.inr rfl)⟩
  · obtain ⟨_, hcells, hregisters⟩ := stored_advance s dest r hd
    obtain ⟨hip, hlen, hstatus, herrOp, herrVal⟩ := hregisters
    exact .inl ⟨hip, hlen, hstatus, herrOp, herrVal, hcells⟩

/-- The address checks, the data reads and the operation are alike in the two sources. -/
theorem execArith_swap (mode : OverflowMode) (k : ArithOp) (src1 src2 dest : Word) (s : State) :
    execArith mode k src1 src2 dest s = execArith mode k src2 src1 dest s := by
  have hvalid : s.operandsValid src1 src2 dest = s.operandsValid src2 src1 dest :=
    congrArg (· && s.valid dest) (Bool.and_comm _ _)
  rw [execArith, hvalid, alu_comm, execArith]

/-- Settles O26: the shared procedure is symmetric in its sources. -/
theorem sourcesCommute : Obligations.SourcesCommute :=
  fun s src1 src2 dest => ⟨congrArg _ (execArith_swap _ .add src1 src2 dest s),
    congrArg _ (execArith_swap _ .mul src1 src2 dest s)⟩

end Sys2Proof.Machine
end

section
/-! The control family: the meaning of HLT, the step on a fetched 99, and the result of a halted machine. -/

namespace Sys2Proof.Machine

/-- R59: a halted machine hands its whole array back. -/
theorem endRun_halted_result (s : State) : (s.endRun .halted).result = some (.ok s.image) := rfl

/-- Settles O27: ending the run writes `status` only, and the meaning of HLT and the step on a fetched 99 both end it. -/
theorem haltStopsTheRun : Obligations.HaltStopsTheRun :=
  fun s => ⟨exec_hlt s, step_of_ninetyNine, endRun_halted_result s⟩

end Sys2Proof.Machine
end

section
/-! The exceptions family: the errors of ADD and MUL at the step, what an error leaves as it was, and the count of the
completed steps of a run. -/

namespace Sys2Proof.Machine

/-! ### The errors of ADD and MUL -/

/-- Settles O20: the two answers of the shared procedure out of range, one for each mode. -/
theorem overflowInEitherMode : Obligations.OverflowInEitherMode :=
  fun k _ _ _ _ hlen h1 h2 hd hout =>
    ⟨execArith_fault_of_overflow hlen ⟨h1, h2, hd⟩ (k := k) hout,
      stored_execArith_wrap_of_overflow hlen ⟨h1, h2, hd⟩ (k := k) hout⟩

/-- The address check comes before the data reads, so that the values of the sources do not matter (R64, R80). -/
theorem step_of_arith_not_valid {s : State} {k : ArithOp} (hr : s.status = .running) (hlen : s.ip + 3 < s.len)
    (hop : s.opcodeAt = arithValue k) (hbad : ¬ s.AddressesValid) : step s = .next (s.raise .segFault) := by
  rw [step_eq_exec_of_arith hr (by omega) hop, exec_arith, execArith_of_not_valid hlen hbad]

/-- Settles O21: one lemma over the operation, for either opcode value. -/
theorem badAddressRaisesSegFault : Obligations.BadAddressRaisesSegFault := by
  intro s hr hlen hop hbad
  obtain h1 | h2 := hop
  · exact step_of_arith_not_valid hr hlen (k := .add) h1 hbad
  · exact step_of_arith_not_valid hr hlen (k := .mul) h2 hbad

/-- Settles O22: one lemma over the operation gives both clauses. -/
theorem missingOperandCellsRaiseNotEnoughParams : Obligations.MissingOperandCellsRaiseNotEnoughParams :=
  fun _ hr hip hlen => ⟨fun h1 => step_of_arith_short hr hip (k := .add) h1 hlen,
    fun h2 => step_of_arith_short hr hip (k := .mul) h2 hlen⟩

/-! ### What an error leaves as it was -/

/-- A step after which the run is over has written neither memory nor `len` nor `ip` (R54, R71, R81). -/
theorem frame_of_step_to_terminal {s t : State} (h : step s = .next t) (ht : t.status ≠ .running) :
    t.mem = s.mem ∧ t.len = s.len ∧ t.ip = s.ip := by
  obtain ⟨hr, he⟩ := stepEffect_of_next h
  obtain ⟨_, _, _, _, _, rfl⟩ | ⟨_, hframe⟩ := he.completed_or_ended
  · exact absurd hr ht
  · exact hframe

/-- Settles O31: an error ends the run, and each payload register is written by its own errors only. -/
theorem trapsArePrecise : Obligations.TrapsArePrecise := by
  refine ⟨fun s t h herr => ?_, rfl, rfl, rfl⟩
  have ht : t.status ≠ .running := by
    intro hrun
    simp [hrun] at herr
  obtain ⟨hmem, hlen, hip⟩ := frame_of_step_to_terminal h ht
  obtain ⟨hr, he⟩ := stepEffect_of_next h
  obtain ⟨_, herrOp, _, herrVal⟩ := he.payload hr
  refine ⟨hmem, hlen, hip, herrVal, fun hst => ?_⟩
  obtain hst | hst := hst <;> exact herrOp (by simp [hst]) (by simp [hst])

/-! ### The count of the completed steps -/

/-- A terminal machine takes no step (R58). -/
theorem eq_of_coreRun_terminal {n : Nat} {s t : State} (hs : s.status ≠ .running)
    (h : Host.Core.run core n s = .next t) : n = 0 ∧ t = s := by
  cases n with
  | zero =>
    cases (coreRun_zero s).symm.trans h
    exact ⟨rfl, rfl⟩
  | succ n => cases (coreRun_terminal n s hs).symm.trans h

/-- `n` steps of a running machine move `ip` by 4 each, but for the one that ends the run, if it has ended (R16, R85). -/
theorem ip_of_coreRun {n : Nat} {s t : State} (hs : s.status = .running) (h : Host.Core.run core n s = .next t) :
    (t.status = .running ∧ t.ip = s.ip + 4 * n) ∨ (t.status ≠ .running ∧ t.ip + 4 = s.ip + 4 * n) := by
  induction n generalizing s with
  | zero =>
    cases (coreRun_zero s).symm.trans h
    exact .inl ⟨hs, rfl⟩
  | succ n ih =>
    obtain ⟨u, hu, hrun⟩ := exists_step_of_coreRun_succ h
    by_cases hur : u.status = .running
    · obtain ⟨_, _, huip, _⟩ := step_to_running hu hur
      have hsucc : u.ip + 4 * n = s.ip + 4 * (n + 1) := by omega
      exact hsucc ▸ ih hur hrun
    · obtain ⟨rfl, rfl⟩ := eq_of_coreRun_terminal hur hrun
      obtain ⟨_, _, huip⟩ := frame_of_step_to_terminal hu hur
      exact .inr ⟨hur, by omega⟩

theorem startState_ip (image : List Word) : (startState image).ip = 0 := by rw [startState_eq]

theorem startState_running {image : List Word} (h : image ≠ []) : (startState image).status = .running := by
  rw [startState_eq]
  exact if_neg (mt List.length_eq_zero_iff.1 h)

/-- Settles O42: the start of the empty image is terminal, that of any other is running at `ip = 0`. -/
theorem completedStepsAreIpOverFour : Obligations.CompletedStepsAreIpOverFour := by
  intro image n t h
  by_cases himage : image = []
  · subst himage
    obtain ⟨rfl, rfl⟩ := eq_of_coreRun_terminal (by decide) h
    exact ⟨fun _ => rfl, fun _ hne => absurd rfl hne, fun _ => ⟨rfl, rfl⟩⟩
  · have hip := ip_of_coreRun (startState_running himage) h
    rw [startState_ip, Nat.zero_add] at hip
    obtain ⟨hrun, hip⟩ | ⟨hend, hip⟩ := hip
    · exact ⟨fun _ => hip, fun hend => absurd hrun hend, fun hnil => absurd hnil himage⟩
    · exact ⟨fun hrun => absurd hrun hend, fun _ _ => hip, fun hnil => absurd hnil himage⟩

end Sys2Proof.Machine
end
